-- ==== Sys2Proof/Word.lean ====
section
/-! DEFINITION. The data the core carries: a value of the numeric domain NUM, a Bit, a Byte
(00_scope.md R10, R11; 20_memory.md R66, R67). -/

namespace Sys2Proof

/-- A value of the numeric domain NUM, held as its encoding: the number that the `NUM_W` bits
`arg[NUM_W-1:0]` of an operation word spell, bit 0 the least significant (20_memory.md R67,
30_encoding.md R84). NUM and NUM_W are open (00_scope.md R10), so the encoding is a natural number and
the arithmetic on it is a matter of `Cfg.num`. -/
structure NUM where
  enc : Nat
  deriving DecidableEq, Repr, Inhabited

/-- A Bit, "a value constrained to {0, 1}" (R11); `true` is 1, the mark and idle level (R90). -/
abbrev Bit := Bool

/-- A Byte, "an 8-bit unsigned value"; bit `i` is data bit `i` of the frame (R11, R66). -/
abbrev Byte := BitVec 8

/-- The number a Bit stands for. -/
def Bit.toNum (b : Bit) : Nat := if b then 1 else 0

@[simp] theorem Bit.toNum_true : Bit.toNum true = 1 := rfl
@[simp] theorem Bit.toNum_false : Bit.toNum false = 0 := rfl

end Sys2Proof
end

