-- ==== Sys2Proof/Config.lean ====
section
/-! DEFINITION. The configuration record CFG (00_scope.md R8) and the values the spec leaves open:
the numeric domain NUM (R10) and the waveform function SIN (43_modulator.md R131). -/

namespace Sys2Proof

/-- Which numeric domain NUM is (00_scope.md R10, decision D1, OPEN).
`rational` is the exact field R10 names. Its values are of any size, so its encoding has no fixed number of
bits, and `none` stands for that width.
`uninterpreted id width` is any domain whatever with `width` bits of encoding, or with no bound: its
operations are the opaque constants below, so a statement over all formats is a statement over all of them.
The two IEEE formats are the ones 95_test_vectors.md names (log entries 2, 4 and 16). -/
inductive NumFormat where
  | rational
  | binary32
  | binary64
  | uninterpreted (id : Nat) (width : Option Nat)
  deriving DecidableEq, Repr

/-- The constant 0 of an uninterpreted domain. -/
opaque Config.openZero : Nat → NUM
/-- Addition of an uninterpreted domain. -/
opaque Config.openAdd : Nat → NUM → NUM → NUM
/-- Subtraction of an uninterpreted domain. -/
opaque Config.openSub : Nat → NUM → NUM → NUM
/-- Multiplication of an uninterpreted domain. -/
opaque Config.openMul : Nat → NUM → NUM → NUM
/-- Negation of an uninterpreted domain. -/
opaque Config.openNeg : Nat → NUM → NUM
/-- Absolute value of an uninterpreted domain. -/
opaque Config.openAbs : Nat → NUM → NUM
/-- The order `<` of an uninterpreted domain. -/
opaque Config.openLt : Nat → NUM → NUM → Bool
/-- The order `<=` of an uninterpreted domain. -/
opaque Config.openLe : Nat → NUM → NUM → Bool
/-- Which encodings of an uninterpreted domain are finite values. -/
opaque Config.openFinite : Nat → NUM → Bool
/-- A waveform function about which nothing is assumed, "not even SIN(0) = 0"
(93_implementation_defined.md U7). -/
opaque Config.openSin : Nat → NUM → NUM

/-- SIN of CFG: a total function NUM → NUM (R8, R131) as plain data.
It is the listed table, and at every other argument the opaque function of index `rest`; with an
empty table it is any total function (log entry 5). -/
structure Waveform where
  table : List (NUM × NUM)
  rest  : Nat
  deriving DecidableEq, Repr

/-- The four constant coefficients of one correlator (40_tone_correlator.md R101). -/
structure ToneCoef (α : Type) where
  a : α
  b : α
  c : α
  d : α
  deriving DecidableEq, Repr

/-- The configuration record CFG (00_scope.md R8), field by field in the order of its table. -/
structure Cfg where
  /-- NUM. -/
  num      : NumFormat
  /-- L, samples per symbol. -/
  l        : Nat
  /-- A[0], B[0], C[0], D[0]: the space correlator's coefficients. -/
  space    : ToneCoef NUM
  /-- A[1], B[1], C[1], D[1]: the mark correlator's coefficients. -/
  mark     : ToneCoef NUM
  /-- LPF_A0, smoothing stage input gain. -/
  lpfA0    : NUM
  /-- LPF_B1, smoothing stage feedback gain. -/
  lpfB1    : NUM
  /-- DETECT_T, carrier detect threshold. -/
  detectT  : NUM
  /-- DROP_T, carrier drop threshold. -/
  dropT    : NUM
  /-- DROP_RUN, consecutive low samples that drop the carrier. -/
  dropRun  : Nat
  /-- SILENCE_T, near-zero energy threshold. -/
  silenceT : NUM
  /-- WIN, start-qualification window length. -/
  win      : Nat
  /-- ZMIN, least number of 0 entries in the window. -/
  zmin     : Nat
  /-- SETTLE, settle delay in inputs. -/
  settle   : Nat
  /-- DPHI[0], phase step of the space tone. -/
  dphi0    : NUM
  /-- DPHI[1], phase step of the mark tone. -/
  dphi1    : NUM
  /-- TWO_PI, wrap modulus. -/
  twoPi    : NUM
  /-- SIN, the waveform function. -/
  sin      : Waveform
  /-- TXQ_CAP in bit-samples, `none` for infinity. -/
  txqCap   : Option Nat
  deriving DecidableEq, Repr

end Sys2Proof
end

