-- ==== Sys2Proof/Machine/Operands.lean ====
section
/-! DEFINITION. The fields of an operation word and the operand each format takes from it
(30_encoding.md R80, R81, R84), and how an operand is laid into a word. -/

namespace Sys2Proof.Machine

/-- Is `x` a number of `width` bits? With no bound every number is. -/
def fitsIn (width : Option Nat) (x : Nat) : Bool :=
  match width with
  | none => true
  | some w => decide (x < 2 ^ w)

/-- The low `width` bits of `x`; with no bound, all of it. -/
def lowBits (width : Option Nat) (x : Nat) : Nat :=
  match width with
  | none => x
  | some w => x % 2 ^ w

/-- `ARG_W = max(NUM_W, 8)` (R80). NUM_W is "open with NUM": where NUM's encoding has no bound, neither has
the operand field (log entry 16). -/
def argWidth (numW : Option Nat) : Option Nat := numW.map (max · 8)

/-- An operation word has `5 + ARG_W` bits (R80). -/
def wordWidth (numW : Option Nat) : Option Nat := (argWidth numW).map (5 + ·)

/-- `op = w[3:0]`. -/
def opField (w : Nat) : Nat := w % 16

/-- `rdy = w[4]`. -/
def rdyField (w : Nat) : Bit := decide (w / 16 % 2 = 1)

/-- `arg = w[5+ARG_W-1:5]`; a word has no bits above it. -/
def argField (w : Nat) : Nat := w / 32

/-- Format S: the NUM whose encoding is `arg[NUM_W-1:0]`. -/
def sampleOperand (numW : Option Nat) (w : Nat) : NUM := ⟨lowBits numW (argField w)⟩

/-- Format B: the Bit `arg[0]`. -/
def bitOperand (w : Nat) : Bit := decide (argField w % 2 = 1)

/-- Format Y: the Byte `arg[7:0]`. -/
def byteOperand (w : Nat) : Byte := BitVec.ofNat 8 (argField w)

/-- The word with the given fields: `w = arg << 5 | rdy << 4 | op`. -/
def wordOf (op : Nat) (rdy : Bit) (arg : Nat) : Nat := op + 16 * rdy.toNum + 32 * arg

end Sys2Proof.Machine
end

