-- ==== Sys2Proof/Machine/Num.lean ====
section
/-! DEFINITION. Arithmetic on NUM (00_scope.md R10): the operations a numeric domain supplies, the exact
field of rationals, the two IEEE formats 95_test_vectors.md names, and the domain a `NumFormat` selects. -/

namespace Sys2Proof.Machine

/-- What R10 asks of a numeric domain: a constant 0, total operations, decidable comparisons, and which
values are finite. Nothing else is assumed: "no rule relies on associativity, distributivity or
exactness". -/
structure NumOps (α : Type) where
  zero     : α
  add      : α → α → α
  sub      : α → α → α
  mul      : α → α → α
  neg      : α → α
  abs      : α → α
  lt       : α → α → Bool
  le       : α → α → Bool
  isFinite : α → Bool

/-- The exact field of R10, the rationals; every value is finite. -/
def exactOps : NumOps Rat where
  zero := 0
  add := fun x y => x + y
  sub := fun x y => x - y
  mul := fun x y => x * y
  neg := fun x => -x
  abs := fun x => if x < 0 then -x else x
  lt := fun x y => decide (x < y)
  le := fun x y => decide (x ≤ y)
  isFinite := fun _ => true

/-- A binary interchange format: a sign bit, then the exponent, then the fraction (PRESUMED, log
entry 4: the layout and the rounding are IEEE 754's, from outside the spec). -/
structure BinFormat where
  expBits  : Nat
  fracBits : Nat
  deriving DecidableEq, Repr

def BinFormat.b32 : BinFormat := ⟨8, 23⟩
def BinFormat.b64 : BinFormat := ⟨11, 52⟩

/-- The weight of the sign bit. -/
def BinFormat.signBit (f : BinFormat) : Nat := 2 ^ (f.expBits + f.fracBits)

/-- The encoding of +infinity: exponent field all ones, fraction 0. -/
def BinFormat.infEnc (f : BinFormat) : Nat := (2 ^ f.expBits - 1) * 2 ^ f.fracBits

/-- The canonical quiet NaN. -/
def BinFormat.nan (f : BinFormat) : NUM := ⟨f.infEnc + 2 ^ (f.fracBits - 1)⟩

/-- The encoding without its sign. -/
def BinFormat.magEnc (f : BinFormat) (x : NUM) : Nat := x.enc % f.signBit

def BinFormat.isNeg (f : BinFormat) (x : NUM) : Bool := decide (f.signBit ≤ x.enc)

def BinFormat.isFinite (f : BinFormat) (x : NUM) : Bool :=
  decide (x.enc < 2 * f.signBit) && decide (f.magEnc x < f.infEnc)

/-- How many units in the last place of the smallest number the magnitude of a finite `x` is. -/
def BinFormat.units (f : BinFormat) (x : NUM) : Nat :=
  let m := f.magEnc x
  let e := m / 2 ^ f.fracBits
  if e = 0 then m else (2 ^ f.fracBits + m % 2 ^ f.fracBits) * 2 ^ (e - 1)

/-- The signed number of units of a finite `x`. -/
def BinFormat.toInt (f : BinFormat) (x : NUM) : Int :=
  if f.isNeg x then -(f.units x : Int) else (f.units x : Int)

/-- How many bits the product of two numbers of units lies below one unit. -/
def BinFormat.prodShift (f : BinFormat) : Nat := 2 ^ (f.expBits - 1) + f.fracBits - 2

/-- The encoding nearest to `n / 2^k` units, ties to even; an infinity when it is out of range. -/
def BinFormat.round (f : BinFormat) (neg : Bool) (n k : Nat) : NUM :=
  let drop := max k (Nat.log2 n - f.fracBits)
  let q := n / 2 ^ drop
  let r := n % 2 ^ drop
  let up := if 2 ^ drop < 2 * r ∨ (2 ^ drop = 2 * r ∧ q % 2 = 1) then 1 else 0
  let e := (drop - k) * 2 ^ f.fracBits + (q + up)
  ⟨(if neg then f.signBit else 0) + min e f.infEnc⟩

def BinFormat.neg (f : BinFormat) (x : NUM) : NUM :=
  ⟨if f.isNeg x then x.enc - f.signBit else x.enc + f.signBit⟩

def BinFormat.abs (f : BinFormat) (x : NUM) : NUM := ⟨f.magEnc x⟩

/-- The sum, rounded; an exact zero is negative only when both operands are. -/
def BinFormat.add (f : BinFormat) (x y : NUM) : NUM :=
  if f.isFinite x && f.isFinite y then
    let s := f.toInt x + f.toInt y
    f.round (if s = 0 then f.isNeg x && f.isNeg y else decide (s < 0)) s.natAbs 0
  else f.nan

def BinFormat.mul (f : BinFormat) (x y : NUM) : NUM :=
  if f.isFinite x && f.isFinite y then
    f.round (f.isNeg x != f.isNeg y) (f.units x * f.units y) f.prodShift
  else f.nan

/-- The operations of a binary format. A non-finite operand gives a NaN and compares false; no rule
ever uses either, since an operation that meets one faults. -/
def BinFormat.ops (f : BinFormat) : NumOps NUM where
  zero := ⟨0⟩
  add := f.add
  sub := fun x y => f.add x (f.neg y)
  mul := f.mul
  neg := f.neg
  abs := f.abs
  lt := fun x y => f.isFinite x && f.isFinite y && decide (f.toInt x < f.toInt y)
  le := fun x y => f.isFinite x && f.isFinite y && decide (f.toInt x ≤ f.toInt y)
  isFinite := f.isFinite

/-! ### The rationals at the port -/

/-- The number an integer is written as: 0, -1, 1, -2, 2, ... are 0, 1, 2, 3, 4, ... -/
def codeInt (z : Int) : Nat := if z < 0 then 2 * z.natAbs - 1 else 2 * z.natAbs

def intCode (a : Nat) : Int := if a % 2 = 0 then ((a / 2 : Nat) : Int) else -((a / 2 + 1 : Nat) : Int)

/-- The encoding of a rational in lowest terms (DESIGN CHOICE, log entry 16). With `b` its denominator less
1, `p` the least power of 2 above `b`, and `a` the code of its numerator, it is
`p * (1 + 2 * (b + p * a)) - 1`. Zero is encoded as 0. -/
def ofRat (q : Rat) : NUM :=
  let b := q.den - 1
  let p := 2 ^ Nat.log2 (2 * b + 1)
  ⟨p * (1 + 2 * (b + p * codeInt q.num)) - 1⟩

/-- The rational a number encodes; every number encodes one. `p` is the largest power of 2 that divides the
number plus 1. -/
def toRat (x : NUM) : Rat :=
  let m := x.enc + 1
  let p := Nat.gcd m (2 ^ Nat.log2 m)
  let r := m / p / 2
  mkRat (intCode (r / p)) (r % p + 1)

/-- The operations of the exact field, on encodings. -/
def rationalOps : NumOps NUM where
  zero := ofRat 0
  add := fun x y => ofRat (exactOps.add (toRat x) (toRat y))
  sub := fun x y => ofRat (exactOps.sub (toRat x) (toRat y))
  mul := fun x y => ofRat (exactOps.mul (toRat x) (toRat y))
  neg := fun x => ofRat (exactOps.neg (toRat x))
  abs := fun x => ofRat (exactOps.abs (toRat x))
  lt := fun x y => exactOps.lt (toRat x) (toRat y)
  le := fun x y => exactOps.le (toRat x) (toRat y)
  isFinite := fun x => exactOps.isFinite (toRat x)

/-! ### The configured domain -/

/-- A value of an uninterpreted domain lies within its encoding's bits. -/
def clip (width : Option Nat) (x : NUM) : NUM := ⟨lowBits width x.enc⟩

/-- The operations of the uninterpreted domain `id` of `width` bits. All that is known of them is that
their results are encodings and that 0 is finite (R10: the operations are total functions into NUM, and
0 is one of its values). -/
def openOps (id : Nat) (width : Option Nat) : NumOps NUM where
  zero := clip width (Config.openZero id)
  add := fun x y => clip width (Config.openAdd id x y)
  sub := fun x y => clip width (Config.openSub id x y)
  mul := fun x y => clip width (Config.openMul id x y)
  neg := fun x => clip width (Config.openNeg id x)
  abs := fun x => clip width (Config.openAbs id x)
  lt := Config.openLt id
  le := Config.openLe id
  isFinite := fun x => fitsIn width x.enc &&
    (decide (x = clip width (Config.openZero id)) || Config.openFinite id x)

/-- NUM_W, the number of bits of NUM's encoding (30_encoding.md R80); `none` where it has no bound. -/
def numWidth : NumFormat → Option Nat
  | .rational => none
  | .binary32 => some 32
  | .binary64 => some 64
  | .uninterpreted _ w => w

/-- The operations of the configured domain. -/
def numOps : NumFormat → NumOps NUM
  | .rational => rationalOps
  | .binary32 => BinFormat.b32.ops
  | .binary64 => BinFormat.b64.ops
  | .uninterpreted id w => openOps id w

/-- SIN at `x` (43_modulator.md R131), an encoding of the configured domain. -/
def sinAt (fmt : NumFormat) (f : Waveform) (x : NUM) : NUM :=
  match f.table.find? (fun p => p.1 = x) with
  | some p => clip (numWidth fmt) p.2
  | none => clip (numWidth fmt) (Config.openSin f.rest x)

end Sys2Proof.Machine
end

