-- ==== Sys2Proof/Machine/Construction.lean ====
section
/-! DEFINITION. What construction checks (60_exceptions.md R181) and the two configurations the spec
writes out (95_test_vectors.md section 0). -/

namespace Sys2Proof.Machine

/-- A finite TXQ_CAP must hold a frame (00_scope.md R8, 60_exceptions.md R181). -/
def capHoldsFrame (l : Nat) : Option Nat → Bool
  | none => true
  | some c => decide (10 * l ≤ c)

/-- The check construction makes of CFG: it fails when `L = 0`, `WIN = 0`, `ZMIN > WIN`, `SETTLE = 0`,
`DROP_RUN = 0` or `TXQ_CAP < 10·L`, and for nothing else (60_exceptions.md R181). -/
def cfgValid (c : Cfg) : Bool :=
  decide (1 ≤ c.l) && decide (1 ≤ c.win) && decide (c.zmin ≤ c.win) && decide (1 ≤ c.settle) &&
    decide (1 ≤ c.dropRun) && capHoldsFrame c.l c.txqCap

/-- TV1, the one configuration of which the spec gives every field (95_test_vectors.md section 0), with
NUM the spec's example instantiation binary32. The numbers are its encodings of
0, 1/2, 1/16, -1/2, 1, 1/8, 1/4, 3/4 and -1. SIN is the table of four phases; "any total extension",
so elsewhere it is the opaque function. -/
def tv1 : Cfg where
  num := .binary32
  l := 4
  space := ⟨⟨0xBF000000⟩, ⟨0⟩, ⟨0x3D800000⟩, ⟨0⟩⟩
  mark := ⟨⟨0⟩, ⟨0x3F000000⟩, ⟨0x3D800000⟩, ⟨0⟩⟩
  lpfA0 := ⟨0x3F800000⟩
  lpfB1 := ⟨0⟩
  detectT := ⟨0x3F000000⟩
  dropT := ⟨0x3E000000⟩
  dropRun := 3
  silenceT := ⟨0⟩
  win := 2
  zmin := 2
  settle := 1
  dphi0 := ⟨0x3F000000⟩
  dphi1 := ⟨0x3E800000⟩
  twoPi := ⟨0x3F800000⟩
  sin := ⟨[(⟨0⟩, ⟨0x3F800000⟩), (⟨0x3E800000⟩, ⟨0⟩), (⟨0x3F000000⟩, ⟨0xBF800000⟩), (⟨0x3F400000⟩, ⟨0⟩)], 0⟩
  txqCap := some 80

/-- REF, the source's scenario (95_test_vectors.md section 0): `L = 160`, `WIN = 30`, `ZMIN = 25`,
`SETTLE = 50`, an unbounded queue; the fields REF does not exercise are TV1's. -/
def refCfg : Cfg := { tv1 with l := 160, win := 30, zmin := 25, settle := 50, txqCap := none }

/-- The configuration `State.reset` is constructed with (DESIGN CHOICE, log entry 1). -/
def resetCfg : Cfg := tv1

end Sys2Proof.Machine
end

