-- ==== Sys2Proof/Syntax.lean ====
section
/-! DEFINITION. The ten operations of the operation port (30_encoding.md R85), with the operand each
format carries (R81). -/

namespace Sys2Proof

/-- One operation of the core. `rdy` is `sink_ready` (R82), which only RXS and RXB read. -/
inductive Instr where
  /-- NOP (46_system_ops.md R170). -/
  | nop
  /-- RXS `x`: the whole receive path for one Sample (42_demodulator.md R122). -/
  | rxs (x : NUM) (rdy : Bit)
  /-- DEMS `x`: demodulate one Sample (42_demodulator.md R120). -/
  | dems (x : NUM)
  /-- RXB `b`: one input to the UART receiver (44_uart_receiver.md R140). -/
  | rxb (b : Bit) (rdy : Bit)
  /-- TXQ `y`: enqueue one Byte as a frame (45_uart_transmitter.md R160). -/
  | txq (y : Byte)
  /-- TXB: pop one bit-sample (45_uart_transmitter.md R162). -/
  | txb
  /-- MODB `b`: modulate one bit-sample (43_modulator.md R130). -/
  | modb (b : Bit)
  /-- TXS: the whole transmit path for one Sample (43_modulator.md R134). -/
  | txs
  /-- STAT: read the STATUS word (46_system_ops.md R172). -/
  | stat
  /-- RST: reset (46_system_ops.md R171). -/
  | rst
  deriving DecidableEq, Repr

end Sys2Proof
end

