-- ==== Sys2Proof/WellFormed.lean ====
section
/-! DEFINITION. Which operations an operation word can carry (30_encoding.md R80, R81). -/

namespace Sys2Proof

open Sys2Proof.Machine

/-- A Sample operand is an encoding of `NUM_W` bits (format S, `arg[NUM_W-1:0]`). The other operands'
types already say all that the encoding admits. -/
def Instr.wf (numW : Option Nat) : Instr → Bool
  | .nop => true
  | .rxs x _ => fitsIn numW x.enc
  | .dems x => fitsIn numW x.enc
  | .rxb _ _ => true
  | .txq _ => true
  | .txb => true
  | .modb _ => true
  | .txs => true
  | .stat => true
  | .rst => true

end Sys2Proof
end

