-- ==== Sys2Proof/Decode.lean ====
section
/-! DEFINITION. Decoding an operation word (30_encoding.md R80 to R87), total on every number, and the
encoder written from the same tables. -/

namespace Sys2Proof

open Sys2Proof.Machine

/-- Why a number is no operation. -/
inductive DecodeError where
  /-- A reserved operation code, 0x9 to 0xE (R86). -/
  | reserved (op : Nat)
  /-- More bits than an operation word has (R80); the port cannot carry it (log entry 11). -/
  | overlong
  deriving DecidableEq, Repr

/-- Decode the operation word `w` of a core whose NUM has `numW` bits, `none` for no bound (R81, R85).
Only `w[3:0]` is matched, and a field the format does not use is not looked at (R87). -/
def decode (numW : Option Nat) (w : Nat) : Except DecodeError Instr :=
  if fitsIn (wordWidth numW) w = false then .error .overlong
  else match opField w with
    | 0x0 => .ok .nop
    | 0x1 => .ok (.rxs (sampleOperand numW w) (rdyField w))
    | 0x2 => .ok (.dems (sampleOperand numW w))
    | 0x3 => .ok (.rxb (bitOperand w) (rdyField w))
    | 0x4 => .ok (.txq (byteOperand w))
    | 0x5 => .ok .txb
    | 0x6 => .ok (.modb (bitOperand w))
    | 0x7 => .ok .txs
    | 0x8 => .ok .stat
    | 0xF => .ok .rst
    | op => .error (.reserved op)

/-- The operation code of an operation (R85). -/
def Instr.opcode : Instr → Nat
  | .nop => 0x0
  | .rxs _ _ => 0x1
  | .dems _ => 0x2
  | .rxb _ _ => 0x3
  | .txq _ => 0x4
  | .txb => 0x5
  | .modb _ => 0x6
  | .txs => 0x7
  | .stat => 0x8
  | .rst => 0xF

/-- The operation word of an operation. An ignored `rdy` is written 1 and an ignored `arg` 0, as the
notation of R94 has them by default. -/
def encode (i : Instr) : Nat :=
  match i with
  | .nop => wordOf i.opcode true 0
  | .rxs x rdy => wordOf i.opcode rdy x.enc
  | .dems x => wordOf i.opcode true x.enc
  | .rxb b rdy => wordOf i.opcode rdy b.toNum
  | .txq y => wordOf i.opcode true y.toNat
  | .txb => wordOf i.opcode true 0
  | .modb b => wordOf i.opcode true b.toNum
  | .txs => wordOf i.opcode true 0
  | .stat => wordOf i.opcode true 0
  | .rst => wordOf i.opcode true 0

/-- What the decoder reads from a word numbered as spec/opcode_table.json numbers it, of which `nbits`
bits are given and the rest are 0, on the core `State.reset` describes. -/
def decodeTableWord (nbits w : Nat) : Option Instr :=
  match decode (numWidth resetCfg.num) (w % 2 ^ nbits) with
  | .ok i => some i
  | .error _ => none

end Sys2Proof
end

