-- ==== Sys2Proof/Machine/State.lean ====
section
/-! DEFINITION. The state of one core (10_state.md R20), the configuration and the port's two sides that
go with it, its reset value (R44), and the reasons a step can stop. -/

namespace Sys2Proof.Machine

/-- `CORR[t]`: the last in-phase and quadrature values (R22, R23). -/
structure Corr (α : Type) where
  i : α
  q : α
  deriving DecidableEq, Repr

/-- `CT.state` (R26). -/
inductive CarrierState where
  | idle
  | carrierDetected
  deriving DecidableEq, Repr

/-- `CT`: the smoothing stage's state, the machine's state and its run counter (R25 to R27). -/
structure CarrierTracker (α : Type) where
  f     : α
  state : CarrierState
  run   : Nat
  deriving DecidableEq, Repr

/-- `URX.state` (R31). -/
inductive FrameState where
  | idle
  | midBit
  | receiving
  | stopBit
  deriving DecidableEq, Repr

/-- `URX`: the receiver's registers (R31 to R35). `win` holds the `URX.fill` readable entries of the
store WINQ, oldest first, so `URX.fill` is its length (log entry 7). -/
structure UartRx where
  state    : FrameState
  win      : List Bit
  cnt      : Nat
  bitIndex : Nat
  acc      : Byte
  deriving DecidableEq, Repr

/-- The status flags (R37). -/
structure Status where
  ferr   : Bit
  rxovr  : Bit
  cfgErr : Bit
  deriving DecidableEq, Repr

/-- Exactly the elements of 10_state.md R20. -/
structure Arch where
  /-- `DL`, newest sample first (R21). -/
  dl     : List NUM
  /-- `CORR[0]`. -/
  space  : Corr NUM
  /-- `CORR[1]`. -/
  mark   : Corr NUM
  ct     : CarrierTracker NUM
  /-- `MOD.phase` (R30). -/
  phase  : NUM
  urx    : UartRx
  /-- `TXQ`, front first (R36). -/
  txq    : List Bit
  status : Status
  deriving DecidableEq, Repr

/-- The refusals a response reports (30_encoding.md R83, 60_exceptions.md R180). -/
inductive Err where
  | none
  | illop
  | cfgErr
  | txFull
  | nonFinite
  deriving DecidableEq, Repr

/-- The response to one operation, by the fields of 30_encoding.md R83; a field an operation does not
emit is 0. -/
structure Response where
  ok     : Bit := false
  err    : Err := .none
  bit    : Bit := false
  bvalid : Bit := false
  ferr   : Bit := false
  fail   : Bit := false
  byte   : Byte := 0
  val    : Nat := 0
  deriving DecidableEq, Repr

/-- One core at its operation port.
`arch` is the state of the core. `cfg` is CFG, which is no state of the core but the parameter of the
model (00_scope.md R8): no step writes it. `port` holds the operation words the host has presented and
the core has not yet performed, the next one first, and `resp` the response to the last operation
performed (30_encoding.md R80; log entries 3 and 15). -/
structure State where
  cfg  : Cfg
  arch : Arch
  port : List Nat
  resp : Option Response
  deriving DecidableEq, Repr

/-- The one fault of the core. -/
inductive Fault where
  /-- Raised by DEMS, RXS, MODB and TXS when an arithmetic step gives, or a rule reads, a value that is
  not a finite NUM: the operation has no next state (60_exceptions.md R187 b,
  93_implementation_defined.md U5). Safe: the spec defines no behaviour here. -/
  | nonFiniteResult
  deriving DecidableEq, Repr

/-- The refusals of the model (those of the core are responses, see `Err`). -/
inductive Refusal where
  /-- Raised by an arm of `exec` whose operation has no meaning yet; none is left. Safe. -/
  | notModelled (mnemonic : String)
  /-- Raised by `step` when the number at the port has more bits than an operation word
  (30_encoding.md R80), which no port can carry. Safe. -/
  | notAnOperationWord
  deriving DecidableEq, Repr

/-- The reset state of a core with configuration `c` (10_state.md R44). The same elements stand in a
core whose construction failed, where nothing reads them (log entry 8). -/
def Arch.initial (c : Cfg) : Arch :=
  let z := (numOps c.num).zero
  { dl := List.replicate c.l z
    space := ⟨z, z⟩
    mark := ⟨z, z⟩
    ct := ⟨z, .idle, 0⟩
    phase := z
    urx := ⟨.idle, [], 0, 0, 0⟩
    txq := []
    status := ⟨false, false, !cfgValid c⟩ }

/-- Construction with CFG `c` (70_reset_and_hazards.md R200, R202; 60_exceptions.md R181). -/
def State.construct (c : Cfg) : State :=
  { cfg := c, arch := Arch.initial c, port := [], resp := none }

/-- The machine right after reset. -/
def State.reset : State := State.construct resetCfg

end Sys2Proof.Machine
end

