-- ==== Sys2Proof/Machine/Ops.lean ====
section
/-! DEFINITION. The named operations over the core's stores and registers (20_memory.md R61, R63, R64),
the ways an operation ends (30_encoding.md R83, 60_exceptions.md R180, R189, R190), and the operation port
(30_encoding.md R80). -/

namespace Sys2Proof.Machine

/-- What an operation ends in. -/
abbrev Result := Host.Outcome State Fault Refusal

/-! ### How an operation ends -/

/-- The operation is performed: the core's state becomes `a` and the response is `r`. -/
def State.commit (a : Arch) (r : Response) (s : State) : State :=
  { s with arch := a, resp := some r }

/-- A refusal, the core's only exception: the operation changes no state of the core and the response
says why; nothing is saved, no mode changes and there is nothing to return from
(60_exceptions.md R180, R190, R191). -/
def State.refuse (e : Err) (s : State) : State :=
  { s with resp := some { err := e } }

/-- Check 2 of R189: a core that is not constructed refuses every operation but NOP and STAT (R181). -/
def ifConstructed (s : State) (k : Result) : Result :=
  if s.arch.status.cfgErr then .next (s.refuse .cfgErr) else k

/-- Check 3 of R189: a Sample operand that is not a finite NUM is refused (R187 a). -/
def ifFinite (x : NUM) (s : State) (k : Result) : Result :=
  if (numOps s.cfg.num).isFinite x then k else .next (s.refuse .nonFinite)

/-- An arithmetic step that gives a value that is not finite, or a rule that reads one, leaves the
operation without a next state (R187 b, log entry 9). `steps` lists the values. -/
def ifNoOverflow (steps : List NUM) (s : State) (k : Result) : Result :=
  if steps.all (numOps s.cfg.num).isFinite then k else .fault .nonFiniteResult

/-! ### The delay line DL -/

/-- `DL.shift(x)` (R61): `x` enters in front and the oldest entry is dropped. -/
def shiftIn {α : Type} (x : α) (dl : List α) : List α := x :: dl.dropLast

/-- `DL[L-1]`, the sample `s[n-L]` (R21); `z` stands in where a state holds fewer than `L` entries,
which no run reaches. -/
def delayed {α : Type} (z : α) (l : Nat) (dl : List α) : α := dl.getD (l - 1) z

/-! ### The window WINQ -/

/-- `WINQ.push(b)` (R63) of a window of at most `w` entries. -/
def winPush (w : Nat) (b : Bit) (win : List Bit) : List Bit :=
  if win.length < w then win ++ [b] else win.drop 1 ++ [b]

/-- `WINQ.full()`. -/
def winFull (w : Nat) (win : List Bit) : Bool := decide (win.length = w)

/-- `WINQ.zeros()`. -/
def winZeros (win : List Bit) : Nat := win.count false

/-- `WINQ.oldest() == 0`. -/
def winOldestZero (win : List Bit) : Bool := decide (win.head? = some false)

/-- `URX.fill` (10_state.md R32). -/
def UartRx.fill (u : UartRx) : Nat := u.win.length

/-! ### The transmit queue TXQ -/

/-- `TXQ.pop()` where the queue has an entry, the idle level 1 where it has none
(20_memory.md R64, 45_uart_transmitter.md R162, R163): the Bit and the queue after. -/
def popOrIdle : List Bit → Bit × List Bit
  | [] => (true, [])
  | b :: rest => (b, rest)

/-- Do `n` more entries fit (45_uart_transmitter.md R164)? -/
def queueTakes (cap : Option Nat) (q : List Bit) (n : Nat) : Bool :=
  match cap with
  | none => true
  | some c => decide (q.length + n ≤ c)

/-! ### The units' registers -/

/-- What DEMOD.STEP writes: `DL`, `CORR[0]`, `CORR[1]`, `CT` (42_demodulator.md R121). -/
def Arch.setDemod (dl : List NUM) (space mark : Corr NUM) (ct : CarrierTracker NUM) (a : Arch) : Arch :=
  { a with dl := dl, space := space, mark := mark, ct := ct }

/-- What URX.STEP writes: `URX`, and the flags of `STATUS` (44_uart_receiver.md R140). -/
def Arch.setReceiver (u : UartRx) (st : Status) (a : Arch) : Arch :=
  { a with urx := u, status := st }

/-- What TXQ and TXB write (45_uart_transmitter.md R160, R162). -/
def Arch.setQueue (q : List Bit) (a : Arch) : Arch := { a with txq := q }

/-- What MODB writes (43_modulator.md R130). -/
def Arch.setPhase (p : NUM) (a : Arch) : Arch := { a with phase := p }

/-- RST: every element takes its reset value but STATUS.CFGERR, which stays (46_system_ops.md R171,
70_reset_and_hazards.md R201). -/
def Arch.resetKeepingCfgErr (c : Cfg) (a : Arch) : Arch :=
  { Arch.initial c with status := ⟨false, false, a.status.cfgErr⟩ }

/-! ### The operation port -/

/-- The host presents the word `w` as the next operation (30_encoding.md R80). Words are presented one at a
time (70_reset_and_hazards.md R207), and the spec gives no waiting queue; that a word presented while others
still wait goes in FRONT of them, so that the very next step performs it, is a DESIGN CHOICE (log
entry 15). -/
def State.present (w : Nat) (s : State) : State := { s with port := w :: s.port }

/-- The state with the words `ws` waiting at the port. -/
def State.withPort (ws : List Nat) (s : State) : State := { s with port := ws }

/-- Take the next word from the port; `none` while the host presents nothing. -/
def takeWord (s : State) : Option (Nat × State) :=
  match s.port with
  | [] => none
  | w :: rest => some (w, s.withPort rest)

/-- What a number that decodes to no operation does: a reserved code is refused with ILLOP before any
other check (30_encoding.md R86, 60_exceptions.md R182, R189); a number too long for the port is no
operation word. -/
def execUndecoded (e : DecodeError) (s : State) : Result :=
  match e with
  | .reserved _ => .next (s.refuse .illop)
  | .overlong => .refused .notAnOperationWord

end Sys2Proof.Machine
end

