-- ==== Sys2Proof/Machine/Flags.lean ====
section
/-! DEFINITION. The flags: the sticky STATUS flags, the STATUS word (10_state.md R37, 30_encoding.md R92),
and the response word (30_encoding.md R83). -/

namespace Sys2Proof.Machine

/-- The code of CarrierState (30_encoding.md R88). -/
def CarrierState.code : CarrierState → Nat
  | .idle => 0
  | .carrierDetected => 1

/-- The code of FrameState (30_encoding.md R89). -/
def FrameState.code : FrameState → Nat
  | .idle => 0
  | .midBit => 1
  | .receiving => 2
  | .stopBit => 3

/-- The code of a refusal in `resp[3:1]` (30_encoding.md R83). -/
def Err.code : Err → Nat
  | .none => 0
  | .illop => 1
  | .cfgErr => 2
  | .txFull => 3
  | .nonFinite => 4

/-- One byte handed over at the end of a frame (44_uart_receiver.md R145, R146). -/
structure Delivery where
  byte : Byte
  ferr : Bit
  fail : Bit
  deriving DecidableEq, Repr

/-- The sticky flags after a receiver step that made the delivery `d`, if any: set by the event, cleared
by nothing but RST (10_state.md R37, 60_exceptions.md R191). -/
def Status.record (d : Option Delivery) (st : Status) : Status :=
  match d with
  | none => st
  | some d => { st with ferr := st.ferr || d.ferr, rxovr := st.rxovr || d.fail }

/-- The response of a receive operation that produced the Bit `bit` and the delivery `d`, if any. -/
def Response.ofDelivery (bit : Bit) (d : Option Delivery) : Response :=
  match d with
  | none => { ok := true, bit := bit }
  | some d => { ok := true, bit := bit, bvalid := true, byte := d.byte, ferr := d.ferr, fail := d.fail }

/-- STATUS.TXE: the transmit queue is empty. -/
def txEmpty (q : List Bit) : Bit := q.isEmpty

/-- The STATUS word of 30_encoding.md R92, as STAT returns it (46_system_ops.md R172): with CFGERR set
only CFGERR is meaningful. -/
def statusWord (a : Arch) : Nat :=
  if a.status.cfgErr then 0x40
  else a.ct.state.code + 2 * a.urx.state.code + 8 * a.status.ferr.toNum + 16 * a.status.rxovr.toNum +
    32 * (txEmpty a.txq).toNum

/-- The response word of 30_encoding.md R83, bit 0 the least significant. -/
def Response.word (r : Response) : Nat :=
  r.ok.toNum + 2 * r.err.code + 16 * r.bit.toNum + 32 * r.bvalid.toNum + 64 * r.ferr.toNum +
    128 * r.fail.toNum + 256 * r.byte.toNat + 65536 * r.val

end Sys2Proof.Machine
end

