-- ==== Sys2Proof/Machine/Carrier.lean ====
section
/-! DEFINITION. CarrierTracker, the internal function CT.DEC (41_carrier_tracker.md R110 to R118). -/

namespace Sys2Proof.Machine

/-- The numbers of CFG that CT.DEC reads (R118). -/
structure TrackerCoef (α : Type) where
  lpfA0    : α
  lpfB1    : α
  detectT  : α
  dropT    : α
  dropRun  : Nat
  silenceT : α
  deriving DecidableEq, Repr

def trackerCoef (c : Cfg) : TrackerCoef NUM :=
  { lpfA0 := c.lpfA0, lpfB1 := c.lpfB1, detectT := c.detectT, dropT := c.dropT, dropRun := c.dropRun
    silenceT := c.silenceT }

/-- The smoothing stage (R111): `filtered`, with every value produced or read. -/
def smooth {α : Type} (n : NumOps α) (k : TrackerCoef α) (f em es : α) : α × List α :=
  let raw := n.sub em es
  let ar := n.mul k.lpfA0 raw
  let bf := n.mul k.lpfB1 f
  let filtered := n.add ar bf
  (filtered, [k.lpfA0, k.lpfB1, f, raw, ar, bf, filtered])

/-- The two-state machine (R113 to R115), from the comparisons `mag > DETECT_T` (`detect`) and
`mag < DROP_T` (`low`) and the sign `sgn` of the sample: the state and the run counter after, and the
bit. The state BEFORE the sample selects the rule. -/
def carrierRule (dropRun : Nat) (detect low : Bool) (sgn : Bit) (st : CarrierState) (run : Nat) :
    CarrierState × Nat × Bit :=
  match st with
  | .idle =>
    if detect then (.carrierDetected, 0, sgn) else (.idle, run, true)
  | .carrierDetected =>
    if low then
      if dropRun ≤ run + 1 then (.idle, 0, true) else (.carrierDetected, run + 1, sgn)
    else (.carrierDetected, 0, sgn)

/-- The near-silence guard (R116): it overrides the emitted bit only. -/
def silenceGuard {α : Type} (n : NumOps α) (k : TrackerCoef α) (em es : α) (bit : Bit) : Bit :=
  if n.lt em k.silenceT && n.lt es k.silenceT then true else bit

/-- What CT.DEC gives: the tracker after, the bit, and every value produced or read. -/
structure CarrierOut (α : Type) where
  ct    : CarrierTracker α
  bit   : Bit
  steps : List α

/-- CT.DEC (R118) over any numeric domain, on the mark energy `em` and the space energy `es`. -/
def carrierDecide {α : Type} (n : NumOps α) (k : TrackerCoef α) (ct : CarrierTracker α) (em es : α) :
    CarrierOut α :=
  let sm := smooth n k ct.f em es
  let filtered := sm.1
  let mag := n.abs filtered
  let sgn : Bit := n.lt n.zero filtered
  let r := carrierRule k.dropRun (n.lt k.detectT mag) (n.lt mag k.dropT) sgn ct.state ct.run
  { ct := ⟨filtered, r.1, r.2.1⟩
    bit := silenceGuard n k em es r.2.2
    steps := em :: es :: sm.2 ++ [mag, k.detectT, k.dropT, k.silenceT] }

/-- CT.DEC of the configured core. -/
def ctDec (c : Cfg) (ct : CarrierTracker NUM) (em es : NUM) : CarrierOut NUM :=
  carrierDecide (numOps c.num) (trackerCoef c) ct em es

end Sys2Proof.Machine
end

