-- ==== Sys2Proof/Machine/Correlator.lean ====
section
/-! DEFINITION. ToneCorrelator, the internal function CORR.UPD (40_tone_correlator.md R100 to R106). -/

namespace Sys2Proof.Machine

/-- What one update gives: the two registers, the energy, and every value an arithmetic step produced
or read, in the order of the pseudocode. -/
structure CorrOut (α : Type) where
  i      : α
  q      : α
  energy : α
  steps  : List α

/-- CORR.UPD (R102, R103): both registers from the OLD values `i0` and `q0`, with the newest sample `s`
and the delayed sample `d`, every expression evaluated left to right as parenthesised. -/
def corrUpd {α : Type} (n : NumOps α) (k : ToneCoef α) (i0 q0 s d : α) : CorrOut α :=
  let cd := n.mul k.c d
  let s1 := n.sub s cd
  let ai := n.mul k.a i0
  let s2 := n.add s1 ai
  let bq := n.mul k.b q0
  let i' := n.sub s2 bq
  let dd := n.mul k.d d
  let nd := n.neg dd
  let bi := n.mul k.b i0
  let t2 := n.add nd bi
  let aq := n.mul k.a q0
  let q' := n.add t2 aq
  let ii := n.mul i' i'
  let qq := n.mul q' q'
  let e := n.add ii qq
  { i := i', q := q', energy := e
    steps := [k.a, k.b, k.c, k.d, i0, q0, s, d, cd, s1, ai, s2, bq, i', dd, nd, bi, t2, aq, q', ii, qq, e] }

end Sys2Proof.Machine
end

