-- ==== Sys2Proof/Machine/Receiver.lean ====
section
/-! DEFINITION. UartReceiver, URX.STEP and the operation RXB (44_uart_receiver.md R140 to R151). -/

namespace Sys2Proof.Machine

/-- Does the input `b`, already pushed into `win`, qualify a start edge (R141)? -/
def startQualified (c : Cfg) (b : Bit) (win : List Bit) : Bool :=
  !b && winFull c.win win && decide (c.zmin ≤ winZeros win) && winOldestZero win

/-- State Idle (R141). -/
def urxIdle (c : Cfg) (u : UartRx) (b : Bit) : UartRx :=
  let win := winPush c.win b u.win
  if startQualified c b win then { state := .midBit, win := win, cnt := 0, bitIndex := 0, acc := 0 }
  else { u with win := win }

/-- State MidBit (R142); the input is not looked at. -/
def urxMidBit (c : Cfg) (u : UartRx) : UartRx :=
  if u.cnt + 1 = c.settle then { u with state := .receiving, cnt := 0 }
  else { u with cnt := u.cnt + 1 }

/-- `acc | ((b & 1) << i)` (R143). -/
def orBit (acc : Byte) (b : Bit) (i : Nat) : Byte := acc ||| (BitVec.ofNat 8 b.toNum <<< i)

/-- State Receiving (R143): count first, then compare; the bit goes to the old position. -/
def urxReceiving (c : Cfg) (u : UartRx) (b : Bit) : UartRx :=
  let n := u.cnt + 1
  if n = (u.bitIndex + 1) * c.l then
    { u with
      state := if u.bitIndex + 1 = 8 then .stopBit else .receiving
      cnt := n
      bitIndex := u.bitIndex + 1
      acc := orBit u.acc b u.bitIndex }
  else { u with cnt := n }

/-- State StopBit (R144), with the delivery of R145 and the framing flag of R146. -/
def urxStopBit (c : Cfg) (u : UartRx) (b rdy : Bit) : UartRx × Option Delivery :=
  let n := u.cnt + 1
  if n = 9 * c.l then
    ({ u with state := .idle, win := [], cnt := n }, some { byte := u.acc, ferr := !b, fail := !rdy })
  else ({ u with cnt := n }, none)

/-- URX.STEP (R140): exactly one of the four rules, selected by the state before the input. -/
def urxStep (c : Cfg) (u : UartRx) (b rdy : Bit) : UartRx × Option Delivery :=
  match u.state with
  | .idle => (urxIdle c u b, none)
  | .midBit => (urxMidBit c u, none)
  | .receiving => (urxReceiving c u b, none)
  | .stopBit => urxStopBit c u b rdy

/-- URX.STEP on the core's state: the receiver, and the sticky flags a delivery sets. -/
def Arch.receive (c : Cfg) (b rdy : Bit) (a : Arch) : Arch × Option Delivery :=
  let r := urxStep c a.urx b rdy
  (a.setReceiver r.1 (a.status.record r.2), r.2)

/-- RXB `b` (R140). -/
def execRxb (b rdy : Bit) (s : State) : Result :=
  ifConstructed s <|
    let r := s.arch.receive s.cfg b rdy
    .next (s.commit r.1 (Response.ofDelivery false r.2))

end Sys2Proof.Machine
end

