-- ==== Sys2Proof/Machine/Demodulator.lean ====
section
/-! DEFINITION. V21Demodulator, DEMOD.STEP and the operations DEMS and RXS (42_demodulator.md R120 to
R125). -/

namespace Sys2Proof.Machine

/-- The registers DEMOD.STEP reads and writes (R120), over any numeric domain. -/
structure DemodRegs (α : Type) where
  dl    : List α
  space : Corr α
  mark  : Corr α
  ct    : CarrierTracker α
  deriving DecidableEq, Repr

/-- The numbers of CFG that DEMOD.STEP reads. -/
structure DemodCoef (α : Type) where
  l       : Nat
  space   : ToneCoef α
  mark    : ToneCoef α
  tracker : TrackerCoef α
  deriving DecidableEq, Repr

/-- What DEMOD.STEP gives: the registers after, the bit, and every value an arithmetic step produced or
read. -/
structure DemodOut (α : Type) where
  regs  : DemodRegs α
  bit   : Bit
  steps : List α

/-- DEMOD.STEP (R121) over any numeric domain, on the sample `x`: the delayed sample is read before the
shift, both correlators get the same two samples, and CT.DEC follows both. -/
def demodulate {α : Type} (n : NumOps α) (k : DemodCoef α) (r : DemodRegs α) (x : α) : DemodOut α :=
  let d := delayed n.zero k.l r.dl
  let m := corrUpd n k.mark r.mark.i r.mark.q x d
  let s := corrUpd n k.space r.space.i r.space.q x d
  let t := carrierDecide n k.tracker r.ct m.energy s.energy
  { regs := ⟨shiftIn x r.dl, ⟨s.i, s.q⟩, ⟨m.i, m.q⟩, t.ct⟩
    bit := t.bit
    steps := m.steps ++ s.steps ++ t.steps }

def demodCoef (c : Cfg) : DemodCoef NUM := ⟨c.l, c.space, c.mark, trackerCoef c⟩

def Arch.demodRegs (a : Arch) : DemodRegs NUM := ⟨a.dl, a.space, a.mark, a.ct⟩

/-- DEMOD.STEP of the configured core on its registers. -/
def demodOut (c : Cfg) (a : Arch) (x : NUM) : DemodOut NUM :=
  demodulate (numOps c.num) (demodCoef c) a.demodRegs x

/-- The core's state after DEMOD.STEP. -/
def demodArch (c : Cfg) (a : Arch) (x : NUM) : Arch :=
  let r := (demodOut c a x).regs
  a.setDemod r.dl r.space r.mark r.ct

/-- No arithmetic step of DEMOD.STEP gives or reads a value that is not finite (60_exceptions.md
R187 b): the condition under which DEMS and RXS have a next state. -/
def demodFinite (c : Cfg) (a : Arch) (x : NUM) : Bool :=
  (demodOut c a x).steps.all (numOps c.num).isFinite

/-- DEMS `x` (R120). -/
def execDems (x : NUM) (s : State) : Result :=
  ifConstructed s <| ifFinite x s <|
    let o := demodOut s.cfg s.arch x
    ifNoOverflow o.steps s <|
      .next (s.commit (demodArch s.cfg s.arch x) { ok := true, bit := o.bit })

/-- RXS `x` (R122): DEMOD.STEP, then URX.STEP on its bit in the same operation. -/
def execRxs (x : NUM) (rdy : Bit) (s : State) : Result :=
  ifConstructed s <| ifFinite x s <|
    let o := demodOut s.cfg s.arch x
    ifNoOverflow o.steps s <|
      let r := (demodArch s.cfg s.arch x).receive s.cfg o.bit rdy
      .next (s.commit r.1 (Response.ofDelivery o.bit r.2))

end Sys2Proof.Machine
end

