-- ==== Sys2Proof/Machine/Transmitter.lean ====
section
/-! DEFINITION. UartTransmitter, the operations TXQ and TXB (45_uart_transmitter.md R160 to R165). -/

namespace Sys2Proof.Machine

/-- FRAMEBITS (R161): start bit 0, the data bits LSB first, stop bit 1. -/
def frameBits (y : Byte) : List Bit :=
  [false, y.getLsbD 0, y.getLsbD 1, y.getLsbD 2, y.getLsbD 3, y.getLsbD 4, y.getLsbD 5, y.getLsbD 6,
    y.getLsbD 7, true]

/-- Each symbol is `l` equal bit-samples (R161, 30_encoding.md R91). -/
def expand (l : Nat) (symbols : List Bit) : List Bit := symbols.flatMap (List.replicate l)

/-- TXQ `y` (R160, R164): the whole frame or nothing. -/
def execTxq (y : Byte) (s : State) : Result :=
  ifConstructed s <|
    if queueTakes s.cfg.txqCap s.arch.txq (10 * s.cfg.l) then
      .next (s.commit (s.arch.setQueue (s.arch.txq ++ expand s.cfg.l (frameBits y))) { ok := true })
    else .next (s.refuse .txFull)

/-- TXB (R162, R163). -/
def execTxb (s : State) : Result :=
  ifConstructed s <|
    let p := popOrIdle s.arch.txq
    .next (s.commit (s.arch.setQueue p.2) { ok := true, bit := p.1 })

end Sys2Proof.Machine
end

