-- ==== Sys2Proof/Machine/Modulator.lean ====
section
/-! DEFINITION. V21Modulator, the operations MODB and TXS (43_modulator.md R130 to R135). -/

namespace Sys2Proof.Machine

/-- `DPHI[b]` (R131). -/
def dphi (c : Cfg) (b : Bit) : NUM := if b then c.dphi1 else c.dphi0

/-- The phase advance (R130, R132): one addition and one conditional subtraction; the new phase, and
every value produced or read. -/
def phaseAdvance {α : Type} (n : NumOps α) (twoPi step phase : α) : α × List α :=
  let p := n.add phase step
  if n.le twoPi p then (n.sub p twoPi, [phase, step, twoPi, p, n.sub p twoPi])
  else (p, [phase, step, twoPi, p])

/-- The phase advance of the configured core for bit `b`. -/
def phaseStep (c : Cfg) (b : Bit) (phase : NUM) : NUM × List NUM :=
  phaseAdvance (numOps c.num) c.twoPi (dphi c b) phase

/-- The Sample MODB emits, as the number in `resp.val`: SIN of the phase BEFORE the advance. -/
def modSample (c : Cfg) (phase : NUM) : Nat := (sinAt c.num c.sin phase).enc

/-- The phase advance has no value that is not finite (60_exceptions.md R187 b): the condition under
which MODB and TXS have a next state. -/
def phaseFinite (c : Cfg) (b : Bit) (phase : NUM) : Bool :=
  (phaseStep c b phase).2.all (numOps c.num).isFinite

/-- MODB `b` (R130). -/
def execModb (b : Bit) (s : State) : Result :=
  ifConstructed s <|
    let p := phaseStep s.cfg b s.arch.phase
    ifNoOverflow p.2 s <|
      .next (s.commit (s.arch.setPhase p.1) { ok := true, val := modSample s.cfg s.arch.phase })

/-- TXS (R134): pop a bit-sample or idle fill, and modulate it. -/
def execTxs (s : State) : Result :=
  ifConstructed s <|
    let t := popOrIdle s.arch.txq
    let p := phaseStep s.cfg t.1 s.arch.phase
    ifNoOverflow p.2 s <|
      .next (s.commit ((s.arch.setQueue t.2).setPhase p.1)
        { ok := true, bit := t.1, val := modSample s.cfg s.arch.phase })

end Sys2Proof.Machine
end

