-- ==== Sys2Proof/Machine/System.lean ====
section
/-! DEFINITION. The system operations NOP, RST, STAT (46_system_ops.md R170 to R172). -/

namespace Sys2Proof.Machine

/-- NOP (R170): performed even when the core is not constructed. -/
def execNop (s : State) : Result := .next (s.commit s.arch { ok := true })

/-- RST (R171). -/
def execRst (s : State) : Result :=
  ifConstructed s <| .next (s.commit (s.arch.resetKeepingCfgErr s.cfg) { ok := true })

/-- STAT (R172): performed even when the core is not constructed. -/
def execStat (s : State) : Result :=
  .next (s.commit s.arch { ok := true, val := statusWord s.arch })

end Sys2Proof.Machine
end

