-- ==== Sys2Proof/Machine/Dispatch.lean ====
section
/-! DEFINITION. The one match from operations to their meanings (30_encoding.md R85). -/

namespace Sys2Proof.Machine

def exec (i : Instr) (s : State) : Host.Outcome State Fault Refusal :=
  match i with
  | .nop => Sys2Proof.Machine.execNop s
  | .rxs x rdy => Sys2Proof.Machine.execRxs x rdy s
  | .dems x => Sys2Proof.Machine.execDems x s
  | .rxb b rdy => Sys2Proof.Machine.execRxb b rdy s
  | .txq y => Sys2Proof.Machine.execTxq y s
  | .txb => Sys2Proof.Machine.execTxb s
  | .modb b => Sys2Proof.Machine.execModb b s
  | .txs => Sys2Proof.Machine.execTxs s
  | .stat => Sys2Proof.Machine.execStat s
  | .rst => Sys2Proof.Machine.execRst s

end Sys2Proof.Machine
end

