-- ==== Sys2Proof/Machine/Step.lean ====
section
/-! DEFINITION. One step of the core: the next operation the host has presented, performed atomically
(00_scope.md R13, R16; 30_encoding.md R80). -/

namespace Sys2Proof.Machine

/-- While the host presents nothing the core stands still: it "never acts on its own" (R13) and "never
halts" (70_reset_and_hazards.md R213; log entry 3). -/
def step (s : State) : Host.Outcome State Fault Refusal :=
  match takeWord s with
  | none => .next s
  | some (w, s') =>
    match decode (numWidth s'.cfg.num) w with
    | .ok i => exec i s'
    | .error e => execUndecoded e s'

/-- `s` with the word `w` of `nbits` bits presented as its next operation. -/
def State.withFetchWord (s : State) (nbits w : Nat) : State := s.present (w % 2 ^ nbits)

end Sys2Proof.Machine
end

