-- ==== Sys2Proof/Safety.lean ====
section
/-! DEFINITION. The terms in which claims about the core are made: its invariant, runs of operations, the
bytes a run delivers, and the exact closed form of the correlator. -/

namespace Sys2Proof.Machine

/-! ### The invariant -/

/-- `x` is a finite value of the configured NUM, within its encoding's bits. -/
def FiniteNum (c : Cfg) (x : NUM) : Prop := (numOps c.num).isFinite x = true

/-- No element of state holds a value that is not finite (60_exceptions.md R187 a: "non-finite values
never enter the state"). -/
def NumsFinite (c : Cfg) (a : Arch) : Prop :=
  (∀ x ∈ a.dl, FiniteNum c x) ∧ FiniteNum c a.space.i ∧ FiniteNum c a.space.q ∧ FiniteNum c a.mark.i ∧
    FiniteNum c a.mark.q ∧ FiniteNum c a.ct.f ∧ FiniteNum c a.phase

/-- The tracker's range (10_state.md R41). -/
def CarrierInv (c : Cfg) (ct : CarrierTracker NUM) : Prop :=
  ct.run + 1 ≤ c.dropRun ∧ (ct.state = .idle → ct.run = 0)

/-- The receiver's schedule (44_uart_receiver.md R141 to R144; 10_state.md R33, R42, R43): in each state,
where the counter and the bit index stand, and that the accumulator holds nothing above the bits taken. -/
def ReceiverInv (c : Cfg) (u : UartRx) : Prop :=
  u.win.length ≤ c.win ∧
    match u.state with
    | .idle => u.bitIndex ≤ 8 ∧ u.cnt ≤ max (c.settle - 1) (9 * c.l)
    | .midBit => u.bitIndex = 0 ∧ u.acc = 0 ∧ u.cnt < c.settle
    | .receiving => u.bitIndex ≤ 7 ∧ u.acc.toNat < 2 ^ u.bitIndex ∧
        u.bitIndex * c.l ≤ u.cnt ∧ u.cnt < (u.bitIndex + 1) * c.l
    | .stopBit => u.bitIndex = 8 ∧ 8 * c.l ≤ u.cnt ∧ u.cnt < 9 * c.l

/-- The queue's bound (10_state.md R43). -/
def QueueInv (c : Cfg) (q : List Bit) : Prop := ∀ cap, c.txqCap = some cap → q.length ≤ cap

/-- What holds of the state of a constructed core between operations. -/
structure ArchInv (c : Cfg) (a : Arch) : Prop where
  dlLength : a.dl.length = c.l
  nums     : NumsFinite c a
  carrier  : CarrierInv c a.ct
  receiver : ReceiverInv c a.urx
  queue    : QueueInv c a.txq

/-- A response the core can return (30_encoding.md R83): `val` fits its field and exactly a refusal has
an error code. -/
def ResponseInv (c : Cfg) (r : Response) : Prop :=
  fitsIn (argWidth (numWidth c.num)) r.val = true ∧ (r.err = .none ↔ r.ok = true)

/-- The invariant: STATUS.CFGERR says whether CFG is valid (10_state.md R37), a constructed core is in
order, and the last response is one the core can return. -/
structure Inv (s : State) : Prop where
  cfgErr : s.arch.status.cfgErr = !cfgValid s.cfg
  arch   : cfgValid s.cfg = true → ArchInv s.cfg s.arch
  resp   : ∀ r, s.resp = some r → ResponseInv s.cfg r

/-! ### Runs of operations -/

/-- Perform operations in order: the state after and the responses (70_reset_and_hazards.md R213: a run's
"result is the sequence of responses and the state after the last operation"); `none` if one of them
stops. -/
def runOps : List Instr → State → Option (State × List Response)
  | [], s => some (s, [])
  | i :: is, s =>
    match exec i s with
    | .next t => (runOps is t).map fun r => (r.1, t.resp.toList ++ r.2)
    | _ => none

/-- The bytes the sink obtains: exactly those with `bvalid = 1` and `fail = 0` (30_encoding.md R83). -/
def sinkBytes (rs : List Response) : List Byte :=
  rs.filterMap fun r => if r.bvalid && !r.fail then some r.byte else none

/-- The receive-path operations (20_memory.md R71). -/
def onReceivePath : Instr → Bool
  | .rxs _ _ => true
  | .dems _ => true
  | .rxb _ _ => true
  | .nop => false
  | .txq _ => false
  | .txb => false
  | .modb _ => false
  | .txs => false
  | .stat => false
  | .rst => false

/-- The transmit-path operations (20_memory.md R71). -/
def onTransmitPath : Instr → Bool
  | .txq _ => true
  | .txb => true
  | .modb _ => true
  | .txs => true
  | .nop => false
  | .rxs _ _ => false
  | .dems _ => false
  | .rxb _ _ => false
  | .stat => false
  | .rst => false

/-! ### The same registers and coefficients over another domain -/

def Corr.map {α β : Type} (f : α → β) (r : Corr α) : Corr β := ⟨f r.i, f r.q⟩

def CarrierTracker.map {α β : Type} (f : α → β) (ct : CarrierTracker α) : CarrierTracker β :=
  ⟨f ct.f, ct.state, ct.run⟩

def DemodRegs.map {α β : Type} (f : α → β) (r : DemodRegs α) : DemodRegs β :=
  ⟨r.dl.map f, r.space.map f, r.mark.map f, r.ct.map f⟩

def toneMap {α β : Type} (f : α → β) (k : ToneCoef α) : ToneCoef β := ⟨f k.a, f k.b, f k.c, f k.d⟩

def TrackerCoef.map {α β : Type} (f : α → β) (k : TrackerCoef α) : TrackerCoef β :=
  ⟨f k.lpfA0, f k.lpfB1, f k.detectT, f k.dropT, k.dropRun, f k.silenceT⟩

def DemodCoef.map {α β : Type} (f : α → β) (k : DemodCoef α) : DemodCoef β :=
  ⟨k.l, toneMap f k.space, toneMap f k.mark, k.tracker.map f⟩

/-! ### The correlator over the exact field -/

/-- The product of two complex rationals. -/
def cmul (x y : Rat × Rat) : Rat × Rat := (x.1 * y.1 - x.2 * y.2, x.1 * y.2 + x.2 * y.1)

/-- `g^k` for a complex rational `g`. -/
def cpow (g : Rat × Rat) : Nat → Rat × Rat
  | 0 => (1, 0)
  | k + 1 => cmul g (cpow g k)

/-- The registers and the delay line of one exact correlator after the samples `xs`, in the order they
come, from the state `st = (I, Q, DL)`: CORR.UPD and DL.shift as DEMOD.STEP calls them
(42_demodulator.md R121). -/
def corrFeed (k : ToneCoef Rat) (l : Nat) (st : Rat × Rat × List Rat) : List Rat → Rat × Rat × List Rat
  | [] => st
  | x :: xs =>
    let o := corrUpd exactOps k st.1 st.2.1 x (delayed 0 l st.2.2)
    corrFeed k l (o.i, o.q, shiftIn x st.2.2) xs

/-- The sample `k` places before the last of `xs`, 0 before the first: `s[n-k]`. -/
def past (xs : List Rat) (k : Nat) : Rat := xs.reverse.getD k 0

end Sys2Proof.Machine
end

