-- ==== Sys2Proof/Certificates/Slice0/Obligations.lean ====
section
/-! DEFINITION. The statements for the provers. Each docstring names the rule it formalises; the cites are in
OBLIGATIONS.json. -/

open Sys2Proof Sys2Proof.Machine

/-! ### Encoding -/

/-- Every well-formed operation comes back from its word, for every width of NUM, bounded or not (log
entry 16): no bit of an operand is dropped (30_encoding.md R80, R81, R84, R85). -/
def Obligations.DecodeInvertsEncode : Prop :=
  ∀ (numW : Option Nat) (i : Instr), i.wf numW = true → decode numW (encode i) = .ok i

/-- What the decoder reads is well-formed, and its canonical word has the length of an operation word
(R80). -/
def Obligations.DecodedOperationFitsItsWord : Prop :=
  ∀ (numW : Option Nat) (w : Nat) (i : Instr), decode numW w = .ok i →
    i.wf numW = true ∧ i.opcode = opField w ∧ fitsIn (wordWidth numW) (encode i) = true

/-- R80, R81, R84, R85: the fields of an operation word, the operand each format takes from them, and the
code of each operation; the codes left over are the reserved ones. -/
def Obligations.OperationCodesFollowTheTable : Prop :=
  ∀ numW w : Nat, w < 2 ^ (5 + max numW 8) →
    let op := w % 16
    let rdy : Bit := decide (w / 16 % 2 = 1)
    let arg := w / 32
    decode (some numW) w =
      if op = 0x0 then .ok .nop
      else if op = 0x1 then .ok (.rxs ⟨arg % 2 ^ numW⟩ rdy)
      else if op = 0x2 then .ok (.dems ⟨arg % 2 ^ numW⟩)
      else if op = 0x3 then .ok (.rxb (decide (arg % 2 = 1)) rdy)
      else if op = 0x4 then .ok (.txq (BitVec.ofNat 8 (arg % 256)))
      else if op = 0x5 then .ok .txb
      else if op = 0x6 then .ok (.modb (decide (arg % 2 = 1)))
      else if op = 0x7 then .ok .txs
      else if op = 0x8 then .ok .stat
      else if op = 0xF then .ok .rst
      else .error (.reserved op)

/-- R87: two words that agree on `op` and on what their format uses are the same operation with the same
effect, and no word with a code of the table is refused by the decoder. -/
def Obligations.IgnoredFieldsHaveNoEffect : Prop :=
  ∀ (s : State) (w v : Nat),
    fitsIn (wordWidth (numWidth s.cfg.num)) w = true → fitsIn (wordWidth (numWidth s.cfg.num)) v = true →
    opField w = opField v → (opField w ≤ 8 ∨ opField w = 15) →
    (opField w = 1 ∨ opField w = 3 → rdyField w = rdyField v) →
    (opField w = 1 ∨ opField w = 2 →
      lowBits (numWidth s.cfg.num) (argField w) = lowBits (numWidth s.cfg.num) (argField v)) →
    (opField w = 3 ∨ opField w = 6 → argField w % 2 = argField v % 2) →
    (opField w = 4 → argField w % 2 ^ 8 = argField v % 2 ^ 8) →
    (∃ i, decode (numWidth s.cfg.num) w = .ok i ∧ decode (numWidth s.cfg.num) v = .ok i) ∧
      step (s.present w) = step (s.present v)

/-- R86: a word with a reserved code is refused, ILLOP, nothing else in the response, and the state of the
core stays, whatever that state is. -/
def Obligations.ReservedCodesAreRefused : Prop :=
  ∀ (s : State) (w : Nat), fitsIn (wordWidth (numWidth s.cfg.num)) w = true → 9 ≤ opField w → opField w ≤ 14 →
    step (s.present w) = .next { s with
      resp := some
        { ok := false, err := .illop, bit := false, bvalid := false, ferr := false, fail := false, byte := 0,
          val := 0 } }

/-- Words written out in 95_test_vectors.md section 0 decode to the operations they stand for. -/
def Obligations.WrittenOutWordsDecode : Prop :=
  decode (some 32) 0x0000000010 = .ok .nop ∧
  decode (some 32) 0x07F0000011 = .ok (.rxs ⟨0x3F800000⟩ true) ∧
  decode (some 32) 0x17F0000012 = .ok (.dems ⟨0xBF800000⟩) ∧
  decode (some 32) 0x0000000023 = .ok (.rxb true false) ∧
  decode (some 32) 0x00000014B4 = .ok (.txq 0xA5) ∧
  decode (some 32) 0x0000000015 = .ok .txb ∧
  decode (some 32) 0x0000000036 = .ok (.modb true) ∧
  decode (some 32) 0x0000000017 = .ok .txs ∧
  decode (some 32) 0x0000000018 = .ok .stat ∧
  decode (some 32) 0x000000001F = .ok .rst

/-- A step performs exactly the operation the next presented word decodes to, after taking that word from
the port (R80, 00_scope.md R16); with nothing presented the core stands still, and a number too long for
the port is refused by name (the model's choices, log entries 3 and 11). -/
def Obligations.StepPerformsThePresentedOperation : Prop :=
  (∀ (s : State) (w : Nat) (rest : List Nat) (i : Instr), s.port = w :: rest →
    decode (numWidth s.cfg.num) w = .ok i → step s = exec i { s with port := rest }) ∧
  (∀ s : State, s.port = [] → step s = .next s) ∧
  (∀ (s : State) (w : Nat) (rest : List Nat), s.port = w :: rest →
    fitsIn (wordWidth (numWidth s.cfg.num)) w = false → step s = .refused .notAnOperationWord)

/-! ### System operations -/

/-- R170: NOP answers ok and changes nothing, in every state, constructed or not. -/
def Obligations.NopOnlyAnswersOk : Prop :=
  ∀ s : State, exec .nop s = .next { s with resp := some { ok := true } }

/-- R171: RST gives every element its reset value, keeps CFGERR and CFG, leaves the state of construction
with the same CFG, is idempotent, STAT then reads 0x20; an unconstructed core refuses it. -/
def Obligations.RstRestoresTheResetState : Prop :=
  ∀ s : State,
    (s.arch.status.cfgErr = true → exec .rst s = .next { s with resp := some { err := .cfgErr } }) ∧
    (s.arch.status.cfgErr = false →
      ∃ t, exec .rst s = .next t ∧
        t = { s with
          arch :=
            { dl := List.replicate s.cfg.l (numOps s.cfg.num).zero
              space := ⟨(numOps s.cfg.num).zero, (numOps s.cfg.num).zero⟩
              mark := ⟨(numOps s.cfg.num).zero, (numOps s.cfg.num).zero⟩
              ct := ⟨(numOps s.cfg.num).zero, .idle, 0⟩
              phase := (numOps s.cfg.num).zero
              urx := ⟨.idle, [], 0, 0, 0⟩
              txq := []
              status := ⟨false, false, false⟩ }
          resp := some { ok := true } } ∧
        (cfgValid s.cfg = true → t.arch = (State.construct s.cfg).arch) ∧
        exec .rst t = .next t ∧
        exec .stat t = .next { t with resp := some { ok := true, val := 0x20 } })

/-- R172, R92, R88, R89: STAT answers the STATUS word, bit by bit, and changes nothing. -/
def Obligations.StatReadsTheStatusWord : Prop :=
  ∀ s : State, ∃ v, exec .stat s = .next { s with resp := some { ok := true, val := v } } ∧
    (s.arch.status.cfgErr = true → v = 0x40) ∧
    (s.arch.status.cfgErr = false →
      v < 64 ∧
      v % 2 = (match s.arch.ct.state with | .idle => 0 | .carrierDetected => 1) ∧
      v / 2 % 4 = (match s.arch.urx.state with
        | .idle => 0 | .midBit => 1 | .receiving => 2 | .stopBit => 3) ∧
      (v / 8 % 2 = 1 ↔ s.arch.status.ferr = true) ∧
      (v / 16 % 2 = 1 ↔ s.arch.status.rxovr = true) ∧
      (v / 32 % 2 = 1 ↔ s.arch.txq = []))

/-! ### Refusals and the fault -/

/-- R181, the check construction makes. -/
def Obligations.ConstructionChecksTheConfiguration : Prop :=
  ∀ c : Cfg, (State.construct c).arch.status.cfgErr = true ↔
    (c.l = 0 ∨ c.win = 0 ∨ c.win < c.zmin ∨ c.settle = 0 ∨ c.dropRun = 0 ∨
      ∃ cap, c.txqCap = some cap ∧ cap < 10 * c.l)

/-- R181: with CFGERR set every operation but NOP and STAT is refused with CFGERR and changes nothing; NOP
is performed and STAT reads 0x40. -/
def Obligations.UnconstructedCoreRefuses : Prop :=
  ∀ (i : Instr) (s : State), s.arch.status.cfgErr = true →
    exec i s = .next { s with resp := some (match i with
      | .nop => { ok := true }
      | .stat => { ok := true, val := 0x40 }
      | _ => { err := .cfgErr }) }

/-- R187 (a): a Sample operand that is not a finite NUM is refused, NONFINITE, and no state changes. -/
def Obligations.NonFiniteSampleIsRefused : Prop :=
  ∀ (s : State) (x : NUM) (rdy : Bit), s.arch.status.cfgErr = false →
    (numOps s.cfg.num).isFinite x = false →
    exec (.dems x) s = .next { s with resp := some { err := .nonFinite } } ∧
    exec (.rxs x rdy) s = .next { s with resp := some { err := .nonFinite } }

/-- R187 (b), 93_implementation_defined.md U5: an arithmetic step that gives a value that is not finite
leaves the operation without a next state. That a rule which READS such a value faults too is the model's
choice (log entry 9). -/
def Obligations.OverflowHasNoNextState : Prop :=
  (∀ (s : State) (x : NUM) (rdy : Bit), s.arch.status.cfgErr = false →
    (numOps s.cfg.num).isFinite x = true → demodFinite s.cfg s.arch x = false →
    exec (.dems x) s = .fault .nonFiniteResult ∧ exec (.rxs x rdy) s = .fault .nonFiniteResult) ∧
  (∀ (s : State) (b : Bit), s.arch.status.cfgErr = false → phaseFinite s.cfg b s.arch.phase = false →
    exec (.modb b) s = .fault .nonFiniteResult ∧
    ((popOrIdle s.arch.txq).1 = b → exec .txs s = .fault .nonFiniteResult))

/-- R190: a refused operation changes no element of state, and says nothing but which refusal it is. -/
def Obligations.RefusedOperationChangesNothing : Prop :=
  ∀ (i : Instr) (s t : State) (r : Response), exec i s = .next t → t.resp = some r → r.ok = false →
    r.err ≠ .none ∧ t = { s with resp := some { err := r.err } }

/-- R189: which refusal an operation reports: the first that applies in the order CFGERR, NONFINITE, TXFULL
(ILLOP comes before, since no operation is decoded); with none of them it is performed. -/
def Obligations.ChecksComeInOrder : Prop :=
  ∀ (i : Instr) (s t : State) (r : Response), exec i s = .next t → t.resp = some r →
    r.err = (if s.arch.status.cfgErr = true ∧ i ≠ .nop ∧ i ≠ .stat then .cfgErr
      else match i with
        | .rxs x _ => if (numOps s.cfg.num).isFinite x = true then .none else .nonFinite
        | .dems x => if (numOps s.cfg.num).isFinite x = true then .none else .nonFinite
        | .txq _ =>
          (match s.cfg.txqCap with
          | none => .none
          | some cap => if s.arch.txq.length + 10 * s.cfg.l ≤ cap then .none else .txFull)
        | _ => .none) ∧
    (r.ok = true ↔ r.err = .none)

/-! ### The transmit path -/

/-- R160, R161: TXQ appends the ten symbols of the frame, each `L` equal bit-samples, and changes nothing
else. -/
def Obligations.TxqAppendsTheFrame : Prop :=
  ∀ (s : State) (y : Byte), s.arch.status.cfgErr = false →
    (∀ cap, s.cfg.txqCap = some cap → s.arch.txq.length + 10 * s.cfg.l ≤ cap) →
    ∃ q : List Bit,
      exec (.txq y) s = .next { s with
        arch := { s.arch with txq := s.arch.txq ++ q }, resp := some { ok := true } } ∧
      q.length = 10 * s.cfg.l ∧
      ∀ k j, k ≤ 9 → j < s.cfg.l →
        q[k * s.cfg.l + j]? = some (if k = 0 then false else if k = 9 then true else y.getLsbD (k - 1))

/-- R164: a frame that does not fit is refused whole, and an unbounded queue never refuses one. -/
def Obligations.QueueFullRefusesTheFrame : Prop :=
  ∀ (s : State) (y : Byte), s.arch.status.cfgErr = false →
    (∀ cap, s.cfg.txqCap = some cap → cap < s.arch.txq.length + 10 * s.cfg.l →
      exec (.txq y) s = .next { s with resp := some { err := .txFull } }) ∧
    (s.cfg.txqCap = none → ∃ t, exec (.txq y) s = .next t ∧ t.resp = some { ok := true })

/-- R162, R163: TXB pops the front entry, and on an empty queue returns 1 and leaves it empty. -/
def Obligations.TxbPopsOrIdleFills : Prop :=
  ∀ s : State, s.arch.status.cfgErr = false →
    (∀ b q, s.arch.txq = b :: q → exec .txb s = .next { s with
      arch := { s.arch with txq := q }, resp := some { ok := true, bit := b } }) ∧
    (s.arch.txq = [] → exec .txb s = .next { s with resp := some { ok := true, bit := true } })

/-- R161, R163, R165: after TXQ `y` on an empty queue, `10·L + n` TXBs return the frame's bit-samples and
then `n` times the idle level, and the core is as before. -/
def Obligations.DrainReturnsTheFrame : Prop :=
  ∀ (s : State) (y : Byte) (n : Nat), s.arch.status.cfgErr = false → s.arch.txq = [] →
    (∀ cap, s.cfg.txqCap = some cap → 10 * s.cfg.l ≤ cap) →
    ∃ t rs, runOps (.txq y :: List.replicate (10 * s.cfg.l + n) .txb) s = some (t, rs) ∧
      t.arch = s.arch ∧
      rs.map (·.bit) = false :: (expand s.cfg.l (frameBits y) ++ List.replicate n true)

/-- R130, R131: MODB emits SIN of the phase before the increment and advances the phase by `DPHI[b]`,
wrapped by one conditional subtraction. -/
def Obligations.ModbEmitsThenAdvances : Prop :=
  ∀ (s : State) (b : Bit), s.arch.status.cfgErr = false → phaseFinite s.cfg b s.arch.phase = true →
    exec (.modb b) s = .next { s with
      arch := { s.arch with phase :=
        let p := (numOps s.cfg.num).add s.arch.phase (if b = true then s.cfg.dphi1 else s.cfg.dphi0)
        if (numOps s.cfg.num).le s.cfg.twoPi p = true then (numOps s.cfg.num).sub p s.cfg.twoPi else p }
      resp := some { ok := true, val := (sinAt s.cfg.num s.cfg.sin s.arch.phase).enc } }

/-- R132, in the exact field: one conditional subtraction keeps the phase in `[0, TWO_PI)` and gives the
sum modulo `TWO_PI`. -/
def Obligations.ExactPhaseStaysInTheCircle : Prop :=
  ∀ twoPi d p : Rat, 0 ≤ p → p < twoPi → 0 ≤ d → d < twoPi →
    let p' := (phaseAdvance exactOps twoPi d p).1
    0 ≤ p' ∧ p' < twoPi ∧ (p' = p + d ∨ p' = p + d - twoPi)

/-- R134: TXS is TXB followed by MODB on the popped bit, and answers both the Bit and the Sample. -/
def Obligations.TxsIsTxbThenModb : Prop :=
  ∀ s : State, s.arch.status.cfgErr = false →
    phaseFinite s.cfg (popOrIdle s.arch.txq).1 s.arch.phase = true →
    ∃ (t u : State) (b : Bit) (v : Nat),
      exec .txb s = .next t ∧ t.resp = some { ok := true, bit := b } ∧
      exec (.modb b) t = .next u ∧ u.resp = some { ok := true, val := v } ∧
      exec .txs s = .next { u with resp := some { ok := true, bit := b, val := v } }

/-- R133: the phase is changed by MODB, TXS and RST only. -/
def Obligations.OnlyModulatorAndResetChangeThePhase : Prop :=
  ∀ (i : Instr) (s t : State), exec i s = .next t → t.arch.phase ≠ s.arch.phase →
    (∃ b, i = .modb b) ∨ i = .txs ∨ i = .rst

/-! ### The demodulator -/

/-- R120, R121, R102, R103: DEMS reads the delayed sample before the shift, gives both correlators the same
two samples, computes each `I` and `Q` from the old pair, and hands the energies to CT.DEC; nothing else
changes. That the delayed sample of a DL with fewer than `L` entries, which no run reaches, reads as 0 is
the model's choice (log entry 13). -/
def Obligations.DemsDemodulatesOneSample : Prop :=
  ∀ (s : State) (x : NUM), s.arch.status.cfgErr = false →
    (numOps s.cfg.num).isFinite x = true → demodFinite s.cfg s.arch x = true →
    let n := numOps s.cfg.num
    let d := s.arch.dl.getD (s.cfg.l - 1) n.zero
    let newI := fun (k : ToneCoef NUM) (r : Corr NUM) =>
      n.sub (n.add (n.sub x (n.mul k.c d)) (n.mul k.a r.i)) (n.mul k.b r.q)
    let newQ := fun (k : ToneCoef NUM) (r : Corr NUM) =>
      n.add (n.add (n.neg (n.mul k.d d)) (n.mul k.b r.i)) (n.mul k.a r.q)
    let energy := fun (k : ToneCoef NUM) (r : Corr NUM) =>
      n.add (n.mul (newI k r) (newI k r)) (n.mul (newQ k r) (newQ k r))
    let o := ctDec s.cfg s.arch.ct (energy s.cfg.mark s.arch.mark) (energy s.cfg.space s.arch.space)
    exec (.dems x) s = .next { s with
      arch := { s.arch with
        dl := x :: s.arch.dl.dropLast
        mark := ⟨newI s.cfg.mark s.arch.mark, newQ s.cfg.mark s.arch.mark⟩
        space := ⟨newI s.cfg.space s.arch.space, newQ s.cfg.space s.arch.space⟩
        ct := o.ct }
      resp := some { ok := true, bit := o.bit } }

/-- R111 to R116, R118: the smoothing stage, the five rows of R115's table chosen by the state before the
sample, and the silence guard that overrides the bit only. -/
def Obligations.CarrierFollowsTheTable : Prop :=
  ∀ (c : Cfg) (ct : CarrierTracker NUM) (em es : NUM),
    let n := numOps c.num
    let filtered := n.add (n.mul c.lpfA0 (n.sub em es)) (n.mul c.lpfB1 ct.f)
    let mag := n.abs filtered
    let sgn := n.lt n.zero filtered
    let o := ctDec c ct em es
    let bit := if n.lt em c.silenceT = true ∧ n.lt es c.silenceT = true then fun _ : Bit => true else id
    o.ct.f = filtered ∧
    (ct.state = .idle → n.lt c.detectT mag = true →
      o.ct.state = .carrierDetected ∧ o.ct.run = 0 ∧ o.bit = bit sgn) ∧
    (ct.state = .idle → n.lt c.detectT mag = false →
      o.ct.state = .idle ∧ o.ct.run = ct.run ∧ o.bit = true) ∧
    (ct.state = .carrierDetected → n.lt mag c.dropT = false →
      o.ct.state = .carrierDetected ∧ o.ct.run = 0 ∧ o.bit = bit sgn) ∧
    (ct.state = .carrierDetected → n.lt mag c.dropT = true → ct.run + 1 < c.dropRun →
      o.ct.state = .carrierDetected ∧ o.ct.run = ct.run + 1 ∧ o.bit = bit sgn) ∧
    (ct.state = .carrierDetected → n.lt mag c.dropT = true → c.dropRun ≤ ct.run + 1 →
      o.ct.state = .idle ∧ o.ct.run = 0 ∧ o.bit = true)

/-- R117: once in CarrierDetected with the run counter at 0, fewer than DROP_RUN samples, whatever they
are, do not drop the carrier. -/
def Obligations.ShortDipKeepsTheCarrier : Prop :=
  ∀ (xs : List NUM) (s t : State) (rs : List Response),
    s.arch.status.cfgErr = false → s.arch.ct.state = .carrierDetected → s.arch.ct.run = 0 →
    xs.length < s.cfg.dropRun → runOps (xs.map .dems) s = some (t, rs) →
    t.arch.ct.state = .carrierDetected ∧ t.arch.ct.run ≤ xs.length

/-- R104: over an exact field, from reset, with `C + jD = (A + jB)^L`, one correlator holds the sum of the
last `L` samples weighted by the powers of `A + jB`, and its window is finite. -/
def Obligations.ExactCorrelatorIsASlidingWindow : Prop :=
  ∀ (k : ToneCoef Rat) (l : Nat) (xs : List Rat), 1 ≤ l → cpow (k.a, k.b) l = (k.c, k.d) →
    let st := corrFeed k l (0, 0, List.replicate l 0) xs
    st.1 = ∑ j ∈ Finset.range l, (cpow (k.a, k.b) j).1 * past xs j ∧
    st.2.1 = ∑ j ∈ Finset.range l, (cpow (k.a, k.b) j).2 * past xs j

/-- R122: RXS is DEMS followed by RXB on the demodulated bit with the same `rdy`, in one operation, and its
response carries the fields of both. -/
def Obligations.RxsIsDemsThenRxb : Prop :=
  ∀ (s : State) (x : NUM) (rdy : Bit), s.arch.status.cfgErr = false →
    (numOps s.cfg.num).isFinite x = true → demodFinite s.cfg s.arch x = true →
    ∃ (t u : State) (b : Bit) (r : Response),
      exec (.dems x) s = .next t ∧ t.resp = some { ok := true, bit := b } ∧
      exec (.rxb b rdy) t = .next u ∧ u.resp = some r ∧ r.bit = false ∧
      exec (.rxs x rdy) s = .next { u with resp := some { r with bit := b } }

/-! ### The receiver -/

/-- R141, R140: state Idle. The input enters the window, and a start edge is qualified by all four
conditions; nothing else of the core changes and nothing is delivered. -/
def Obligations.IdleQualifiesAStartEdge : Prop :=
  ∀ (s : State) (b rdy : Bit), s.arch.status.cfgErr = false → s.arch.urx.state = .idle →
    let win := if s.arch.urx.win.length < s.cfg.win then s.arch.urx.win ++ [b]
      else s.arch.urx.win.drop 1 ++ [b]
    exec (.rxb b rdy) s = .next { s with
      arch := { s.arch with urx :=
        if b = false ∧ win.length = s.cfg.win ∧ s.cfg.zmin ≤ win.count false ∧ win.head? = some false then
          { state := .midBit, win := win, cnt := 0, bitIndex := 0, acc := 0 }
        else { s.arch.urx with win := win } }
      resp := some { ok := true } }

/-- R142: state MidBit counts SETTLE inputs, whatever they are, and then clears the counter. -/
def Obligations.MidBitCountsToSettle : Prop :=
  ∀ (s : State) (b rdy : Bit), s.arch.status.cfgErr = false → s.arch.urx.state = .midBit →
    exec (.rxb b rdy) s = .next { s with
      arch := { s.arch with urx :=
        if s.arch.urx.cnt + 1 = s.cfg.settle then { s.arch.urx with state := .receiving, cnt := 0 }
        else { s.arch.urx with cnt := s.arch.urx.cnt + 1 } }
      resp := some { ok := true } }

/-- R143: state Receiving counts, then compares with `(bit_index + 1) × L`; at the instant the input is
ORed in at the old `bit_index`, and StopBit is entered after data bit 7. -/
def Obligations.ReceivingSamplesAtSymbolBoundaries : Prop :=
  ∀ (s : State) (b rdy : Bit), s.arch.status.cfgErr = false → s.arch.urx.state = .receiving →
    exec (.rxb b rdy) s = .next { s with
      arch := { s.arch with urx :=
        if s.arch.urx.cnt + 1 = (s.arch.urx.bitIndex + 1) * s.cfg.l then
          { s.arch.urx with
            state := if s.arch.urx.bitIndex + 1 = 8 then .stopBit else .receiving
            cnt := s.arch.urx.cnt + 1
            bitIndex := s.arch.urx.bitIndex + 1
            acc := s.arch.urx.acc ||| ((if b = true then 1#8 else 0#8) <<< s.arch.urx.bitIndex) }
        else { s.arch.urx with cnt := s.arch.urx.cnt + 1 } }
      resp := some { ok := true } }

/-- R144, R145, R146: state StopBit counts to `9 × L`; there it delivers the byte once, clears the window
and returns to Idle, whether the sink is ready or not; a sink that is not ready sets `fail` and RXOVR, an
input 0 sets `ferr` and FERR. -/
def Obligations.StopBitDeliversOnce : Prop :=
  ∀ (s : State) (b rdy : Bit), s.arch.status.cfgErr = false → s.arch.urx.state = .stopBit →
    (s.arch.urx.cnt + 1 ≠ 9 * s.cfg.l →
      exec (.rxb b rdy) s = .next { s with
        arch := { s.arch with urx := { s.arch.urx with cnt := s.arch.urx.cnt + 1 } }
        resp := some { ok := true } }) ∧
    (s.arch.urx.cnt + 1 = 9 * s.cfg.l →
      exec (.rxb b rdy) s = .next { s with
        arch := { s.arch with
          urx := { s.arch.urx with state := .idle, win := [], cnt := s.arch.urx.cnt + 1 }
          status :=
            { s.arch.status with
              ferr := if b = true then s.arch.status.ferr else true
              rxovr := if rdy = true then s.arch.status.rxovr else true } }
        resp := some
          { ok := true, bvalid := true, byte := s.arch.urx.acc
            ferr := if b = true then false else true
            fail := if rdy = true then false else true } })

/-- R82: `rdy` has no effect in an RXB or RXS that does not complete a frame. -/
def Obligations.RdyMattersOnlyOnDelivery : Prop :=
  ∀ (s : State) (b : Bit) (x : NUM),
    ¬(s.arch.urx.state = .stopBit ∧ s.arch.urx.cnt + 1 = 9 * s.cfg.l) →
    exec (.rxb b true) s = exec (.rxb b false) s ∧ exec (.rxs x true) s = exec (.rxs x false) s

/-- R150: on an idle line, any number of 1 inputs, an Idle receiver stays Idle and delivers nothing. -/
def Obligations.IdleLineNeverDelivers : Prop :=
  ∀ (s : State) (rdys : List Bit), s.arch.status.cfgErr = false → s.arch.urx.state = .idle →
    ∃ t rs, runOps (rdys.map (.rxb true)) s = some (t, rs) ∧ t.arch.urx.state = .idle ∧
      t.arch.status = s.arch.status ∧ rs = List.replicate rdys.length { ok := true }

/-- R147, R143, R144: from a qualified start edge and with `rdy = 1`, exactly `SETTLE + 9·L` further inputs,
whatever they are, make one frame: every response but the last is plain ok, the last delivers the byte whose bit `i` is
the input `SETTLE + (i+1)·L` after the edge, `ferr` is the last input's complement, and the receiver is
Idle with an empty window. -/
def Obligations.QualifiedEdgeMakesOneFrame : Prop :=
  ∀ (s : State) (bits : List Bit), s.arch.status.cfgErr = false → cfgValid s.cfg = true →
    s.arch.urx.state = .midBit → s.arch.urx.cnt = 0 → s.arch.urx.bitIndex = 0 → s.arch.urx.acc = 0 →
    bits.length = s.cfg.settle + 9 * s.cfg.l →
    ∃ (t : State) (y : Byte),
      runOps (bits.map (.rxb · true)) s = some (t,
        List.replicate (s.cfg.settle + 9 * s.cfg.l - 1) { ok := true } ++
          [{ ok := true, bvalid := true, byte := y, ferr := bits.getLast? != some true }]) ∧
      (∀ i, i < 8 → bits[s.cfg.settle + (i + 1) * s.cfg.l - 1]? = some (y.getLsbD i)) ∧
      t.arch.urx.state = .idle ∧ t.arch.urx.win = []

/-- R149: bit-level loopback. With `WIN + SETTLE <= L`, a receiver that is Idle with an empty or all-ones
window, fed with `rdy = 1` the frames of any bytes with any number of idle bit-samples before, between and after them,
hands the sink exactly those bytes in order, none with a framing error, and ends Idle. -/
def Obligations.LoopbackDeliversTheBytesSent : Prop :=
  ∀ (s : State) (frames : List (Nat × Byte)) (n : Nat),
    s.arch.status.cfgErr = false → cfgValid s.cfg = true → s.cfg.win + s.cfg.settle ≤ s.cfg.l →
    s.arch.urx.state = .idle → (∀ b ∈ s.arch.urx.win, b = true) → s.arch.urx.win.length ≤ s.cfg.win →
    ∃ t rs,
      runOps (((frames.flatMap fun f =>
        List.replicate f.1 true ++ expand s.cfg.l (frameBits f.2)) ++ List.replicate n true).map
          (.rxb · true)) s = some (t, rs) ∧
      sinkBytes rs = frames.map (·.2) ∧ (∀ r ∈ rs, r.ferr = false ∧ r.fail = false) ∧
      t.arch.urx.state = .idle

/-! ### The whole machine -/

/-- R20: the table's column "written by": an element that an operation changes is one the table lists for
it, and CFG and CFGERR are changed by none. The last clause, that no operation changes the words still
waiting at the port, is the model's choice: the port is a field of log entry 3. -/
def Obligations.OnlyTheListedOperationsWrite : Prop :=
  ∀ (i : Instr) (s t : State), exec i s = .next t →
    let demod := (∃ x, i = .dems x) ∨ (∃ x rdy, i = .rxs x rdy) ∨ i = .rst
    let receive := (∃ b rdy, i = .rxb b rdy) ∨ (∃ x rdy, i = .rxs x rdy) ∨ i = .rst
    (t.arch.dl ≠ s.arch.dl → demod) ∧ (t.arch.space ≠ s.arch.space → demod) ∧
    (t.arch.mark ≠ s.arch.mark → demod) ∧ (t.arch.ct ≠ s.arch.ct → demod) ∧
    (t.arch.phase ≠ s.arch.phase → (∃ b, i = .modb b) ∨ i = .txs ∨ i = .rst) ∧
    (t.arch.urx ≠ s.arch.urx → receive) ∧
    (t.arch.txq ≠ s.arch.txq → (∃ y, i = .txq y) ∨ i = .txb ∨ i = .txs ∨ i = .rst) ∧
    (t.arch.status ≠ s.arch.status → receive) ∧
    t.arch.status.cfgErr = s.arch.status.cfgErr ∧ t.cfg = s.cfg ∧ t.port = s.port

/-- R8, R40, R201: no step changes CFG or CFGERR. The last clause, that a step takes the one word in front of
the port, and none from an empty port, is the model's choice (log entry 3). -/
def Obligations.StepKeepsTheConfiguration : Prop :=
  ∀ s t : State, step s = .next t →
    t.cfg = s.cfg ∧ t.arch.status.cfgErr = s.arch.status.cfgErr ∧ t.port = s.port.tail

/-- R191, R37: the sticky flags stay 1 through every operation but RST, and only a frame's completion sets
them. -/
def Obligations.StickyFlagsStayUntilRst : Prop :=
  ∀ (i : Instr) (s t : State) (r : Response), exec i s = .next t → t.resp = some r → i ≠ .rst →
    t.arch.status.ferr = (s.arch.status.ferr || r.ferr) ∧
    t.arch.status.rxovr = (s.arch.status.rxovr || r.fail) ∧
    ((r.ferr = true ∨ r.fail = true) → r.bvalid = true)

/-- R71: a receive-path operation and a transmit-path operation commute: either order gives the same core
and each operation the same response. -/
def Obligations.ReceiveAndTransmitCommute : Prop :=
  ∀ (i j : Instr) (s t u : State), onReceivePath i = true → onTransmitPath j = true →
    exec i s = .next t → exec j t = .next u →
    ∃ t' u', exec j s = .next t' ∧ exec i t' = .next u' ∧ u'.arch = u.arch ∧
      t'.resp = u.resp ∧ u'.resp = t.resp

/-- R44, R200: what construction leaves, and what RST leaves of a constructed core. That the elements stand at
these values after a construction that failed too, where R181 says that no other state is created, is the
model's choice (log entry 8). -/
def Obligations.ResetLeavesTheResetValues : Prop :=
  (∀ c : Cfg,
    let z := (numOps c.num).zero
    let a := (State.construct c).arch
    a.dl = List.replicate c.l z ∧ a.space = ⟨z, z⟩ ∧ a.mark = ⟨z, z⟩ ∧ a.ct = ⟨z, .idle, 0⟩ ∧
    a.phase = z ∧ a.urx = ⟨.idle, [], 0, 0, 0⟩ ∧ a.txq = [] ∧
    a.status = ⟨false, false, !cfgValid c⟩ ∧ (State.construct c).cfg = c) ∧
  (∀ s : State, s.arch.status.cfgErr = false → ∃ t, exec .rst s = .next t ∧
    let z := (numOps s.cfg.num).zero
    t.arch.dl = List.replicate s.cfg.l z ∧ t.arch.space = ⟨z, z⟩ ∧ t.arch.mark = ⟨z, z⟩ ∧
    t.arch.ct = ⟨z, .idle, 0⟩ ∧ t.arch.phase = z ∧ t.arch.urx = ⟨.idle, [], 0, 0, 0⟩ ∧
    t.arch.txq = [] ∧ t.arch.status = ⟨false, false, false⟩ ∧ t.cfg = s.cfg)

/-- `State.reset` is a constructed core of the configuration the model names (log entry 1), with nothing
presented and nothing answered (log entry 3). -/
def Obligations.ResetIsTheNamedConfiguration : Prop :=
  State.reset = State.construct resetCfg ∧ cfgValid State.reset.cfg = true ∧
    State.reset.arch.status.cfgErr = false ∧ State.reset.port = [] ∧ State.reset.resp = none

/-- The invariant of Safety.lean holds of every constructed core, so at reset. -/
def Obligations.ConstructionMeetsTheInvariant : Prop := (∀ c : Cfg, Inv (State.construct c)) ∧ Inv State.reset

/-- The invariant of Safety.lean is kept by every step from every state that meets it: CFGERR tells whether
CFG is valid, DL has `L` entries, no element holds a non-finite value, the tracker, the receiver and the
queue keep the ranges and the schedule of R33, R41 to R43 and R141 to R144, and every response fits its
word. -/
def Obligations.StepKeepsTheInvariant : Prop :=
  ∀ s t : State, Inv s → step s = .next t → Inv t

/-- R33, R41, R42, R43: the ranges at the end of every operation of a constructed core. -/
def Obligations.RangesHoldAfterEveryOperation : Prop :=
  ∀ s t : State, Inv s → cfgValid s.cfg = true → step s = .next t →
    t.arch.ct.run ≤ s.cfg.dropRun - 1 ∧ (t.arch.ct.state = .idle → t.arch.ct.run = 0) ∧
    t.arch.urx.fill ≤ s.cfg.win ∧ t.arch.urx.bitIndex ≤ 8 ∧
    (t.arch.urx.state = .midBit ∨ t.arch.urx.state = .receiving → t.arch.urx.bitIndex ≤ 7) ∧
    t.arch.urx.cnt ≤ max (s.cfg.settle - 1) (9 * s.cfg.l) ∧
    (∀ cap, s.cfg.txqCap = some cap → t.arch.txq.length ≤ cap) ∧
    (t.arch.txq.length = s.arch.txq.length ∨ t.arch.txq.length = s.arch.txq.length + 10 * s.cfg.l ∨
      t.arch.txq.length + 1 = s.arch.txq.length ∨ t.arch.txq = [])

/-- R83: the fields of the response word, bit by bit, and its length. -/
def Obligations.ResponseWordLayout : Prop :=
  ∀ (r : Response) (argW : Nat), r.val < 2 ^ argW →
    (r.word % 2 = 1 ↔ r.ok = true) ∧
    r.word / 2 % 8 = (match r.err with
      | .none => 0 | .illop => 1 | .cfgErr => 2 | .txFull => 3 | .nonFinite => 4) ∧
    (r.word / 16 % 2 = 1 ↔ r.bit = true) ∧ (r.word / 32 % 2 = 1 ↔ r.bvalid = true) ∧
    (r.word / 64 % 2 = 1 ↔ r.ferr = true) ∧ (r.word / 128 % 2 = 1 ↔ r.fail = true) ∧
    r.word / 256 % 256 = r.byte.toNat ∧ r.word / 65536 = r.val ∧ r.word < 2 ^ (16 + argW)

/-! ### The core over the exact field -/

/-- R10: with NUM the rationals, the core's arithmetic is that of the exact field: DEMOD.STEP and the phase
advance on encoded numbers give the encoded results of the same rules over the rationals, and the same bit.
How a rational is encoded is the model's choice (log entry 16). -/
def Obligations.RationalCoreIsExact : Prop :=
  (∀ (c : Cfg) (a : Arch) (x : NUM), c.num = .rational →
    let o := demodOut c a x
    let e := demodulate exactOps ((demodCoef c).map toRat) (a.demodRegs.map toRat) (toRat x)
    o.regs.map toRat = e.regs ∧ o.bit = e.bit) ∧
  (∀ (c : Cfg) (b : Bit) (p : NUM), c.num = .rational →
    toRat (phaseStep c b p).1 =
      (phaseAdvance exactOps (toRat c.twoPi) (toRat (dphi c b)) (toRat p)).1)

/-- R187: with NUM an exact field no operation is refused for a number or left without a next state. That
every number encodes a rational, so that no operand is refused, is the model's choice (log entry 16). -/
def Obligations.RationalCoreAlwaysAnswers : Prop :=
  ∀ (i : Instr) (s : State), s.cfg.num = .rational →
    ∃ t r, exec i s = .next t ∧ t.resp = some r ∧ r.err ≠ .nonFinite

/-- R104 of the whole core: with NUM the rationals and `C + jD = (A + jB)^L` for both tones, a constructed
core fed any samples by DEMS holds in both correlators the sum of the last `L` samples weighted by the
powers of `A + jB`. That every number encodes a rational, so that any DEMS operations are a run, none of them
refused and each sample counted as the rational `toRat` reads, is the model's choice (log entry 16). -/
def Obligations.RationalCoreHoldsTheWindow : Prop :=
  ∀ (c : Cfg) (xs : List NUM), c.num = .rational → cfgValid c = true →
    (∀ k ∈ [c.space, c.mark], cpow (toRat k.a, toRat k.b) c.l = (toRat k.c, toRat k.d)) →
    ∃ t rs, runOps (xs.map .dems) (State.construct c) = some (t, rs) ∧
      ∀ p ∈ [(c.space, t.arch.space), (c.mark, t.arch.mark)],
        toRat p.2.i =
          ∑ j ∈ Finset.range c.l, (cpow (toRat p.1.a, toRat p.1.b) j).1 * past (xs.map toRat) j ∧
        toRat p.2.q =
          ∑ j ∈ Finset.range c.l, (cpow (toRat p.1.a, toRat p.1.b) j).2 * past (xs.map toRat) j
end

