-- ==== Sys2Proof/Laws/Correlator.lean ====
section
/-! SUPPORT. The exact correlator fed one more sample, and what its delay line holds (40_tone_correlator.md R102;
20_memory.md R61). -/

namespace Sys2Proof.Machine

theorem corrFeed_snoc (k : ToneCoef Rat) (l : Nat) (st : Rat × Rat × List Rat) (xs : List Rat) (x : Rat) :
    corrFeed k l st (xs ++ [x]) = corrFeed k l (corrFeed k l st xs) [x] := by
  induction xs generalizing st with
  | nil => rfl
  | cons y ys ih => simp only [List.cons_append, corrFeed]; rw [ih]; rfl

/-- The delay line holds the last `l` samples, newest first, and zeros before the first. -/
theorem corrFeed_delayLine (k : ToneCoef Rat) {l : Nat} (hl : 1 ≤ l) (xs : List Rat) :
    (corrFeed k l (0, 0, List.replicate l 0) xs).2.2 =
      (xs.reverse ++ List.replicate l 0).take l := by
  induction xs using List.reverseRecOn with
  | nil => simp [corrFeed]
  | append_singleton xs x ih =>
    obtain ⟨m, rfl⟩ : ∃ m, l = m + 1 := ⟨l - 1, by omega⟩
    rw [corrFeed_snoc]
    simp only [corrFeed, shiftIn]
    rw [ih, List.reverse_append]
    simp only [List.reverse_cons, List.reverse_nil, List.nil_append,
      List.take_succ_cons, List.cons_append]
    rw [List.dropLast_eq_take, List.take_take]
    simp

@[simp] theorem past_snoc_zero (xs : List Rat) (x : Rat) : past (xs ++ [x]) 0 = x := by simp [past]

@[simp] theorem past_snoc_succ (xs : List Rat) (x : Rat) (j : Nat) :
    past (xs ++ [x]) (j + 1) = past xs j := by simp [past]

/-- The delayed sample is `s[n-L]` (10_state.md R21). -/
theorem delayed_delayLine {l : Nat} (hl : 1 ≤ l) (xs : List Rat) :
    delayed 0 l ((xs.reverse ++ List.replicate l 0).take l) = past xs (l - 1) := by
  unfold delayed past
  rw [List.getD_eq_getElem?_getD, List.getD_eq_getElem?_getD, List.getElem?_take, if_pos (by omega),
    List.getElem?_append]
  split
  · rfl
  · rw [List.getElem?_replicate, List.getElem?_eq_none (by omega)]
    split <;> rfl

end Sys2Proof.Machine
end

