-- ==== Sys2Proof/Laws/Decode.lean ====
section
/-! SUPPORT. The fields of a word that was put together, and the words each operation occupies. -/

namespace Sys2Proof.Machine

theorem Bit.toNum_lt_two (b : Bit) : b.toNum < 2 := by cases b <;> decide

@[simp] theorem opField_wordOf {op : Nat} (rdy : Bit) (arg : Nat) (h : op < 16) :
    opField (wordOf op rdy arg) = op := by
  simp only [opField, wordOf]; omega

@[simp] theorem rdyField_wordOf {op : Nat} (rdy : Bit) (arg : Nat) (h : op < 16) :
    rdyField (wordOf op rdy arg) = rdy := by
  have hw : wordOf op rdy arg / 16 % 2 = Bit.toNum rdy := by
    have := Bit.toNum_lt_two rdy
    simp only [wordOf]; omega
  cases rdy <;> simp [rdyField, hw]

@[simp] theorem argField_wordOf {op : Nat} (rdy : Bit) (arg : Nat) (h : op < 16) :
    argField (wordOf op rdy arg) = arg := by
  have := Bit.toNum_lt_two rdy
  simp only [argField, wordOf]; omega

/-! ### Widths -/

@[simp] theorem fitsIn_none (x : Nat) : fitsIn none x = true := rfl

@[simp] theorem fitsIn_some (w x : Nat) : fitsIn (some w) x = true ↔ x < 2 ^ w := by simp [fitsIn]

@[simp] theorem lowBits_none (x : Nat) : lowBits none x = x := rfl

@[simp] theorem lowBits_some (w x : Nat) : lowBits (some w) x = x % 2 ^ w := rfl

theorem fitsIn_lowBits (width : Option Nat) (x : Nat) : fitsIn width (lowBits width x) = true := by
  cases width with
  | none => rfl
  | some w => exact (fitsIn_some _ _).mpr (Nat.mod_lt _ (Nat.two_pow_pos w))

theorem lowBits_of_fitsIn {width : Option Nat} {x : Nat} (h : fitsIn width x = true) :
    lowBits width x = x := by
  cases width with
  | none => rfl
  | some w => exact Nat.mod_eq_of_lt ((fitsIn_some _ _).mp h)

/-- An encoding of NUM fits the operand field. -/
theorem fitsIn_argWidth {numW : Option Nat} {x : Nat} (h : fitsIn numW x = true) :
    fitsIn (argWidth numW) x = true := by
  cases numW with
  | none => rfl
  | some w =>
    exact (fitsIn_some _ _).mpr (((fitsIn_some _ _).mp h).trans_le
      (Nat.pow_le_pow_right (by decide) (Nat.le_max_left w 8)))

/-- A byte fits the operand field. -/
theorem byte_fitsIn_argWidth (numW : Option Nat) {x : Nat} (h : x < 256) :
    fitsIn (argWidth numW) x = true := by
  cases numW with
  | none => rfl
  | some w =>
    exact (fitsIn_some _ _).mpr (h.trans_le
      (Nat.pow_le_pow_right (n := 2) (by decide) (Nat.le_max_right w 8)))

/-- A word of these fields is an operation word when the operand fits `ARG_W` bits. -/
theorem fitsIn_wordOf {op : Nat} {rdy : Bit} {arg : Nat} {numW : Option Nat} (h : op < 16)
    (ha : fitsIn (argWidth numW) arg = true) : fitsIn (wordWidth numW) (wordOf op rdy arg) = true := by
  cases numW with
  | none => rfl
  | some w =>
    have hb := Bit.toNum_lt_two rdy
    have ha : arg < 2 ^ max w 8 := (fitsIn_some _ _).mp ha
    refine (fitsIn_some _ _).mpr ?_
    rw [Nat.pow_add]
    simp only [wordOf]
    omega

theorem opcode_lt (i : Instr) : i.opcode < 16 := by cases i <;> simp [Instr.opcode]

/-- Every operand a well-formed operation carries fits the operand field. -/
theorem encode_fits_of_wf {numW : Option Nat} {i : Instr} (h : i.wf numW = true) :
    fitsIn (wordWidth numW) (encode i) = true := by
  cases i with
  | nop | txb | txs | stat | rst =>
    exact fitsIn_wordOf (opcode_lt _) (byte_fitsIn_argWidth _ (by decide))
  | rxs x rdy => exact fitsIn_wordOf (opcode_lt _) (fitsIn_argWidth h)
  | dems x => exact fitsIn_wordOf (opcode_lt _) (fitsIn_argWidth h)
  | rxb b rdy =>
    exact fitsIn_wordOf (opcode_lt _) (byte_fitsIn_argWidth _ (by have := Bit.toNum_lt_two b; omega))
  | modb b =>
    exact fitsIn_wordOf (opcode_lt _) (byte_fitsIn_argWidth _ (by have := Bit.toNum_lt_two b; omega))
  | txq y => exact fitsIn_wordOf (opcode_lt _) (byte_fitsIn_argWidth _ y.isLt)

/-- The codes are those of the table: none is reserved. -/
theorem opcode_range (i : Instr) : i.opcode ≤ 8 ∨ i.opcode = 15 := by
  cases i <;> simp [Instr.opcode]

end Sys2Proof.Machine
end

