-- ==== Sys2Proof/Laws/State.lean ====
section
/-! SUPPORT. One lemma per field per update of State and Arch, each true by unfolding the update. -/

namespace Sys2Proof.Machine

variable (s : State) (a a' : Arch) (r : Response) (e : Err)

@[simp] theorem State.commit_cfg : (s.commit a r).cfg = s.cfg := rfl
@[simp] theorem State.commit_arch : (s.commit a r).arch = a := rfl
@[simp] theorem State.commit_port : (s.commit a r).port = s.port := rfl
@[simp] theorem State.commit_resp : (s.commit a r).resp = some r := rfl

@[simp] theorem State.refuse_cfg : (s.refuse e).cfg = s.cfg := rfl
@[simp] theorem State.refuse_arch : (s.refuse e).arch = s.arch := rfl
@[simp] theorem State.refuse_port : (s.refuse e).port = s.port := rfl
@[simp] theorem State.refuse_resp : (s.refuse e).resp = some { err := e } := rfl

@[simp] theorem State.present_cfg (w : Nat) : (s.present w).cfg = s.cfg := rfl
@[simp] theorem State.present_arch (w : Nat) : (s.present w).arch = s.arch := rfl
@[simp] theorem State.present_port (w : Nat) : (s.present w).port = w :: s.port := rfl
@[simp] theorem State.present_resp (w : Nat) : (s.present w).resp = s.resp := rfl

@[simp] theorem State.withPort_cfg (ws : List Nat) : (s.withPort ws).cfg = s.cfg := rfl
@[simp] theorem State.withPort_arch (ws : List Nat) : (s.withPort ws).arch = s.arch := rfl
@[simp] theorem State.withPort_port (ws : List Nat) : (s.withPort ws).port = ws := rfl
@[simp] theorem State.withPort_resp (ws : List Nat) : (s.withPort ws).resp = s.resp := rfl

section
variable (dl : List NUM) (sp mk : Corr NUM) (ct : CarrierTracker NUM)

@[simp] theorem Arch.setDemod_dl : (a.setDemod dl sp mk ct).dl = dl := rfl
@[simp] theorem Arch.setDemod_space : (a.setDemod dl sp mk ct).space = sp := rfl
@[simp] theorem Arch.setDemod_mark : (a.setDemod dl sp mk ct).mark = mk := rfl
@[simp] theorem Arch.setDemod_ct : (a.setDemod dl sp mk ct).ct = ct := rfl
@[simp] theorem Arch.setDemod_phase : (a.setDemod dl sp mk ct).phase = a.phase := rfl
@[simp] theorem Arch.setDemod_urx : (a.setDemod dl sp mk ct).urx = a.urx := rfl
@[simp] theorem Arch.setDemod_txq : (a.setDemod dl sp mk ct).txq = a.txq := rfl
@[simp] theorem Arch.setDemod_status : (a.setDemod dl sp mk ct).status = a.status := rfl

end

@[simp] theorem Arch.setReceiver_dl (u : UartRx) (st : Status) : (a.setReceiver u st).dl = a.dl := rfl
@[simp] theorem Arch.setReceiver_space (u : UartRx) (st : Status) : (a.setReceiver u st).space = a.space := rfl
@[simp] theorem Arch.setReceiver_mark (u : UartRx) (st : Status) : (a.setReceiver u st).mark = a.mark := rfl
@[simp] theorem Arch.setReceiver_ct (u : UartRx) (st : Status) : (a.setReceiver u st).ct = a.ct := rfl
@[simp] theorem Arch.setReceiver_phase (u : UartRx) (st : Status) : (a.setReceiver u st).phase = a.phase := rfl
@[simp] theorem Arch.setReceiver_urx (u : UartRx) (st : Status) : (a.setReceiver u st).urx = u := rfl
@[simp] theorem Arch.setReceiver_txq (u : UartRx) (st : Status) : (a.setReceiver u st).txq = a.txq := rfl
@[simp] theorem Arch.setReceiver_status (u : UartRx) (st : Status) : (a.setReceiver u st).status = st := rfl

@[simp] theorem Arch.setQueue_dl (q : List Bit) : (a.setQueue q).dl = a.dl := rfl
@[simp] theorem Arch.setQueue_space (q : List Bit) : (a.setQueue q).space = a.space := rfl
@[simp] theorem Arch.setQueue_mark (q : List Bit) : (a.setQueue q).mark = a.mark := rfl
@[simp] theorem Arch.setQueue_ct (q : List Bit) : (a.setQueue q).ct = a.ct := rfl
@[simp] theorem Arch.setQueue_phase (q : List Bit) : (a.setQueue q).phase = a.phase := rfl
@[simp] theorem Arch.setQueue_urx (q : List Bit) : (a.setQueue q).urx = a.urx := rfl
@[simp] theorem Arch.setQueue_txq (q : List Bit) : (a.setQueue q).txq = q := rfl
@[simp] theorem Arch.setQueue_status (q : List Bit) : (a.setQueue q).status = a.status := rfl

@[simp] theorem Arch.setPhase_dl (p : NUM) : (a.setPhase p).dl = a.dl := rfl
@[simp] theorem Arch.setPhase_space (p : NUM) : (a.setPhase p).space = a.space := rfl
@[simp] theorem Arch.setPhase_mark (p : NUM) : (a.setPhase p).mark = a.mark := rfl
@[simp] theorem Arch.setPhase_ct (p : NUM) : (a.setPhase p).ct = a.ct := rfl
@[simp] theorem Arch.setPhase_phase (p : NUM) : (a.setPhase p).phase = p := rfl
@[simp] theorem Arch.setPhase_urx (p : NUM) : (a.setPhase p).urx = a.urx := rfl
@[simp] theorem Arch.setPhase_txq (p : NUM) : (a.setPhase p).txq = a.txq := rfl
@[simp] theorem Arch.setPhase_status (p : NUM) : (a.setPhase p).status = a.status := rfl

@[simp] theorem Arch.resetKeepingCfgErr_dl (c : Cfg) :
    (a.resetKeepingCfgErr c).dl = (Arch.initial c).dl := rfl
@[simp] theorem Arch.resetKeepingCfgErr_space (c : Cfg) :
    (a.resetKeepingCfgErr c).space = (Arch.initial c).space := rfl
@[simp] theorem Arch.resetKeepingCfgErr_mark (c : Cfg) :
    (a.resetKeepingCfgErr c).mark = (Arch.initial c).mark := rfl
@[simp] theorem Arch.resetKeepingCfgErr_ct (c : Cfg) :
    (a.resetKeepingCfgErr c).ct = (Arch.initial c).ct := rfl
@[simp] theorem Arch.resetKeepingCfgErr_phase (c : Cfg) :
    (a.resetKeepingCfgErr c).phase = (Arch.initial c).phase := rfl
@[simp] theorem Arch.resetKeepingCfgErr_urx (c : Cfg) :
    (a.resetKeepingCfgErr c).urx = ⟨.idle, [], 0, 0, 0⟩ := rfl
@[simp] theorem Arch.resetKeepingCfgErr_txq (c : Cfg) :
    (a.resetKeepingCfgErr c).txq = [] := rfl
@[simp] theorem Arch.resetKeepingCfgErr_status (c : Cfg) :
    (a.resetKeepingCfgErr c).status = ⟨false, false, a.status.cfgErr⟩ := rfl

@[simp] theorem State.construct_cfg (c : Cfg) : (State.construct c).cfg = c := rfl
@[simp] theorem State.construct_arch (c : Cfg) : (State.construct c).arch = Arch.initial c := rfl
@[simp] theorem State.construct_port (c : Cfg) : (State.construct c).port = [] := rfl
@[simp] theorem State.construct_resp (c : Cfg) : (State.construct c).resp = none := rfl

@[simp] theorem takeWord_present (w : Nat) : takeWord (s.present w) = some (w, s) := rfl

/-- A presented word is taken off and the state is as it was before it was presented. -/
theorem takeWord_of_port {w : Nat} {rest : List Nat} (h : s.port = w :: rest) :
    takeWord s = some (w, s.withPort rest) := by
  simp [takeWord, h]

end Sys2Proof.Machine
end

