-- ==== Sys2Proof/Laws/Ops.lean ====
section
/-! SUPPORT. What each shared operation can do, said once: the three checks of 60_exceptions.md R189, and
the stores of 20_memory.md R61, R63, R64. -/

namespace Sys2Proof.Machine

/-! ### The checks -/

section
variable {s t : State} {k : Result}

theorem ifConstructed_of_cfgErr (h : s.arch.status.cfgErr = true) :
    ifConstructed s k = .next (s.refuse .cfgErr) := by simp [ifConstructed, h]

theorem ifConstructed_of_ok (h : s.arch.status.cfgErr = false) : ifConstructed s k = k := by
  simp [ifConstructed, h]

theorem ifConstructed_next : ifConstructed s k = .next t ↔
    (s.arch.status.cfgErr = true ∧ t = s.refuse .cfgErr) ∨
    (s.arch.status.cfgErr = false ∧ k = .next t) := by
  unfold ifConstructed
  cases s.arch.status.cfgErr <;> simp [eq_comm]

variable {x : NUM}

theorem ifFinite_of_finite (h : (numOps s.cfg.num).isFinite x = true) : ifFinite x s k = k := by
  simp [ifFinite, h]

theorem ifFinite_of_not (h : (numOps s.cfg.num).isFinite x = false) :
    ifFinite x s k = .next (s.refuse .nonFinite) := by simp [ifFinite, h]

theorem ifFinite_next : ifFinite x s k = .next t ↔
    ((numOps s.cfg.num).isFinite x = false ∧ t = s.refuse .nonFinite) ∨
    ((numOps s.cfg.num).isFinite x = true ∧ k = .next t) := by
  unfold ifFinite
  cases (numOps s.cfg.num).isFinite x <;> simp [eq_comm]

variable {steps : List NUM}

theorem ifNoOverflow_of_all (h : steps.all (numOps s.cfg.num).isFinite = true) :
    ifNoOverflow steps s k = k := if_pos h

theorem ifNoOverflow_of_not (h : steps.all (numOps s.cfg.num).isFinite = false) :
    ifNoOverflow steps s k = .fault .nonFiniteResult := if_neg (by simp [h])

theorem ifNoOverflow_next : ifNoOverflow steps s k = .next t ↔
    steps.all (numOps s.cfg.num).isFinite = true ∧ k = .next t := by
  cases h : steps.all (numOps s.cfg.num).isFinite
  · simp [ifNoOverflow_of_not h]
  · simp [ifNoOverflow_of_all h]

end

/-! ### The delay line -/

theorem shiftIn_length {α : Type} (x : α) {dl : List α} (h : 1 ≤ dl.length) :
    (shiftIn x dl).length = dl.length := by
  simp only [shiftIn, List.length_cons, List.length_dropLast]; omega

theorem mem_of_mem_shiftIn {α : Type} {x y : α} {dl : List α} (h : y ∈ shiftIn x dl) :
    y = x ∨ y ∈ dl := by
  rcases List.mem_cons.mp h with h | h
  · exact .inl h
  · exact .inr (List.dropLast_subset dl h)

/-- `DL'[0] = x` and `DL'[k+1] = DL[k]` (R61). -/
theorem shiftIn_getElem? {α : Type} (x : α) (dl : List α) (k : Nat) (h : k + 1 < dl.length) :
    (shiftIn x dl)[k + 1]? = dl[k]? := by
  simp only [shiftIn, List.getElem?_cons_succ, List.getElem?_dropLast]
  rw [if_pos (by omega)]

theorem shiftIn_head? {α : Type} (x : α) (dl : List α) : (shiftIn x dl)[0]? = some x := rfl

/-! ### The window -/

theorem winPush_length (w : Nat) (b : Bit) (win : List Bit) (hw : 1 ≤ w) (h : win.length ≤ w) :
    (winPush w b win).length = min (win.length + 1) w := by
  unfold winPush
  split <;> simp <;> omega

theorem winPush_length_le (w : Nat) (b : Bit) (win : List Bit) (hw : 1 ≤ w) (h : win.length ≤ w) :
    (winPush w b win).length ≤ w := by
  rw [winPush_length w b win hw h]; exact Nat.min_le_right _ _

theorem mem_of_mem_winPush {w : Nat} {b c : Bit} {win : List Bit} (h : c ∈ winPush w b win) :
    c = b ∨ c ∈ win := by
  unfold winPush at h
  split at h <;> simp only [List.mem_append, List.mem_singleton] at h
  · exact h.symm
  · exact h.symm.imp_right List.mem_of_mem_drop

/-! ### The queue and the frame -/

theorem popOrIdle_length (q : List Bit) : (popOrIdle q).2.length = q.length - 1 := by
  cases q <;> rfl

theorem queueTakes_iff (cap : Option Nat) (q : List Bit) (n : Nat) :
    queueTakes cap q n = true ↔ ∀ c, cap = some c → q.length + n ≤ c := by
  cases cap <;> simp [queueTakes]

@[simp] theorem frameBits_length (y : Byte) : (frameBits y).length = 10 := rfl

@[simp] theorem expand_nil (l : Nat) : expand l [] = [] := rfl

@[simp] theorem expand_cons (l : Nat) (b : Bit) (bs : List Bit) :
    expand l (b :: bs) = List.replicate l b ++ expand l bs := rfl

@[simp] theorem expand_length (l : Nat) (bs : List Bit) : (expand l bs).length = bs.length * l := by
  induction bs with
  | nil => simp
  | cons b bs ih => simp [ih, Nat.succ_mul, Nat.add_comm]

/-- Bit-sample `k·l + j` of an expansion is symbol `k` (R161). -/
theorem expand_getElem? (l : Nat) (bs : List Bit) (k j : Nat) (hj : j < l) :
    (expand l bs)[k * l + j]? = bs[k]? := by
  induction bs generalizing k with
  | nil => simp
  | cons b bs ih =>
    rw [expand_cons]
    cases k with
    | zero => simp [List.getElem?_append_left, hj]
    | succ k =>
      rw [List.getElem?_append_right (by simp; nlinarith)]
      have : (k + 1) * l + j - (List.replicate l b).length = k * l + j := by
        simp [Nat.succ_mul]; omega
      rw [this, ih]; simp

end Sys2Proof.Machine
end

