-- ==== Sys2Proof/Laws/Exec.lean ====
section
/-! SUPPORT. What one operation can do, said once (60_exceptions.md R180, R189): it is performed, or it is
refused and nothing changes, or it has no next state. Every claim about `exec` starts from here. -/

namespace Sys2Proof.Machine

/-- What a performed operation commits: the core's state and the response. -/
def performed (i : Instr) (s : State) : Arch × Response :=
  match i with
  | .nop => (s.arch, { ok := true })
  | .rxs x rdy =>
    let bit := (demodOut s.cfg s.arch x).bit
    let r := (demodArch s.cfg s.arch x).receive s.cfg bit rdy
    (r.1, Response.ofDelivery bit r.2)
  | .dems x =>
    (demodArch s.cfg s.arch x, { ok := true, bit := (demodOut s.cfg s.arch x).bit })
  | .rxb b rdy =>
    let r := s.arch.receive s.cfg b rdy
    (r.1, Response.ofDelivery false r.2)
  | .txq y => (s.arch.setQueue (s.arch.txq ++ expand s.cfg.l (frameBits y)), { ok := true })
  | .txb => (s.arch.setQueue (popOrIdle s.arch.txq).2, { ok := true, bit := (popOrIdle s.arch.txq).1 })
  | .modb b =>
    (s.arch.setPhase (phaseStep s.cfg b s.arch.phase).1,
      { ok := true, val := modSample s.cfg s.arch.phase })
  | .txs =>
    let t := popOrIdle s.arch.txq
    ((s.arch.setQueue t.2).setPhase (phaseStep s.cfg t.1 s.arch.phase).1,
      { ok := true, bit := t.1, val := modSample s.cfg s.arch.phase })
  | .stat => (s.arch, { ok := true, val := statusWord s.arch })
  | .rst => (s.arch.resetKeepingCfgErr s.cfg, { ok := true })

/-- The refusal an operation reports, by the order of R189; `none` when every check passes. -/
def refusalOf (i : Instr) (s : State) : Err :=
  match i with
  | .nop => .none
  | .stat => .none
  | .rxs x _ =>
    if s.arch.status.cfgErr then .cfgErr
    else if (numOps s.cfg.num).isFinite x then .none else .nonFinite
  | .dems x =>
    if s.arch.status.cfgErr then .cfgErr
    else if (numOps s.cfg.num).isFinite x then .none else .nonFinite
  | .txq _ =>
    if s.arch.status.cfgErr then .cfgErr
    else if queueTakes s.cfg.txqCap s.arch.txq (10 * s.cfg.l) then .none else .txFull
  | .rxb _ _ => if s.arch.status.cfgErr then .cfgErr else .none
  | .txb => if s.arch.status.cfgErr then .cfgErr else .none
  | .modb _ => if s.arch.status.cfgErr then .cfgErr else .none
  | .txs => if s.arch.status.cfgErr then .cfgErr else .none
  | .rst => if s.arch.status.cfgErr then .cfgErr else .none

/-- No arithmetic step of the operation gives or reads a value that is not finite. -/
def noOverflow (i : Instr) (s : State) : Bool :=
  match i with
  | .rxs x _ => demodFinite s.cfg s.arch x
  | .dems x => demodFinite s.cfg s.arch x
  | .modb b => phaseFinite s.cfg b s.arch.phase
  | .txs => phaseFinite s.cfg (popOrIdle s.arch.txq).1 s.arch.phase
  | .nop => true
  | .rxb _ _ => true
  | .txq _ => true
  | .txb => true
  | .stat => true
  | .rst => true

/-- An operation that passes the checks and does not overflow is performed. -/
theorem exec_performed {i : Instr} {s : State} (hr : refusalOf i s = .none)
    (ho : noOverflow i s = true) : exec i s = .next (s.commit (performed i s).1 (performed i s).2) := by
  cases hc : s.arch.status.cfgErr with
  | true =>
    cases i with
    | nop | stat => rfl
    | _ => simp [refusalOf, hc] at hr
  | false =>
    cases i with
    | nop | stat => rfl
    | rst | txb | rxb => exact ifConstructed_of_ok hc
    | modb | txs => exact (ifConstructed_of_ok hc).trans (ifNoOverflow_of_all ho)
    | txq y =>
      have hq : queueTakes s.cfg.txqCap s.arch.txq (10 * s.cfg.l) = true := by
        simpa [refusalOf, hc] using hr
      exact (ifConstructed_of_ok hc).trans (if_pos hq)
    | dems x =>
      have hx : (numOps s.cfg.num).isFinite x = true := by simpa [refusalOf, hc] using hr
      exact (ifConstructed_of_ok hc).trans ((ifFinite_of_finite hx).trans (ifNoOverflow_of_all ho))
    | rxs x rdy =>
      have hx : (numOps s.cfg.num).isFinite x = true := by simpa [refusalOf, hc] using hr
      exact (ifConstructed_of_ok hc).trans ((ifFinite_of_finite hx).trans (ifNoOverflow_of_all ho))

/-- An operation that fails a check is refused. -/
theorem exec_refused {i : Instr} {s : State} (hr : refusalOf i s ≠ .none) :
    exec i s = .next (s.refuse (refusalOf i s)) := by
  cases hc : s.arch.status.cfgErr with
  | true =>
    cases i with
    | nop | stat => exact absurd rfl hr
    | _ => exact (ifConstructed_of_cfgErr hc).trans (by simp [refusalOf, hc])
  | false =>
    cases i with
    | nop | stat => exact absurd rfl hr
    | rst | txb | rxb | modb | txs => simp [refusalOf, hc] at hr
    | txq y =>
      have hq : queueTakes s.cfg.txqCap s.arch.txq (10 * s.cfg.l) = false := by
        simpa [refusalOf, hc] using hr
      exact (ifConstructed_of_ok hc).trans (by simp [refusalOf, hc, hq])
    | dems x =>
      have hx : (numOps s.cfg.num).isFinite x = false := by simpa [refusalOf, hc] using hr
      exact (ifConstructed_of_ok hc).trans ((ifFinite_of_not hx).trans (by simp [refusalOf, hc, hx]))
    | rxs x rdy =>
      have hx : (numOps s.cfg.num).isFinite x = false := by simpa [refusalOf, hc] using hr
      exact (ifConstructed_of_ok hc).trans ((ifFinite_of_not hx).trans (by simp [refusalOf, hc, hx]))

/-- An operation that passes the checks and overflows has no next state (R187 b). -/
theorem exec_overflow {i : Instr} {s : State} (hr : refusalOf i s = .none)
    (ho : noOverflow i s = false) : exec i s = .fault .nonFiniteResult := by
  cases hc : s.arch.status.cfgErr with
  | true =>
    cases i with
    | nop | stat => simp [noOverflow] at ho
    | _ => simp [refusalOf, hc] at hr
  | false =>
    cases i with
    | nop | stat | rst | txb | rxb | txq => simp [noOverflow] at ho
    | modb | txs => exact (ifConstructed_of_ok hc).trans (ifNoOverflow_of_not ho)
    | dems x =>
      have hx : (numOps s.cfg.num).isFinite x = true := by simpa [refusalOf, hc] using hr
      exact (ifConstructed_of_ok hc).trans ((ifFinite_of_finite hx).trans (ifNoOverflow_of_not ho))
    | rxs x rdy =>
      have hx : (numOps s.cfg.num).isFinite x = true := by simpa [refusalOf, hc] using hr
      exact (ifConstructed_of_ok hc).trans ((ifFinite_of_finite hx).trans (ifNoOverflow_of_not ho))

/-- The one inversion lemma of `exec`. -/
theorem exec_next {i : Instr} {s t : State} (h : exec i s = .next t) :
    (refusalOf i s ≠ .none ∧ t = s.refuse (refusalOf i s)) ∨
    (refusalOf i s = .none ∧ noOverflow i s = true ∧
      t = s.commit (performed i s).1 (performed i s).2) := by
  by_cases hr : refusalOf i s = .none
  · cases ho : noOverflow i s with
    | true =>
      rw [exec_performed hr ho] at h
      cases h
      exact .inr ⟨hr, rfl, rfl⟩
    | false => rw [exec_overflow hr ho] at h; cases h
  · rw [exec_refused hr] at h
    cases h
    exact .inl ⟨hr, rfl⟩

/-- A core that is constructed when an operation is performed, for the operations that need it. -/
theorem cfgErr_of_passes {i : Instr} {s : State} (hr : refusalOf i s = .none) (hn : i ≠ .nop)
    (hs : i ≠ .stat) : s.arch.status.cfgErr = false := by
  cases hc : s.arch.status.cfgErr with
  | false => rfl
  | true => cases i <;> simp_all [refusalOf]

@[simp] theorem ofDelivery_ok (b : Bit) (d : Option Delivery) : (Response.ofDelivery b d).ok = true := by
  cases d <;> rfl

@[simp] theorem ofDelivery_err (b : Bit) (d : Option Delivery) : (Response.ofDelivery b d).err = .none := by
  cases d <;> rfl

@[simp] theorem ofDelivery_bit (b : Bit) (d : Option Delivery) : (Response.ofDelivery b d).bit = b := by
  cases d <;> rfl

@[simp] theorem ofDelivery_val (b : Bit) (d : Option Delivery) : (Response.ofDelivery b d).val = 0 := by
  cases d <;> rfl

@[simp] theorem record_cfgErr (d : Option Delivery) (st : Status) : (st.record d).cfgErr = st.cfgErr := by
  cases d <;> rfl

/-- A performed operation answers ok and no error (30_encoding.md R83). -/
theorem performed_ok (i : Instr) (s : State) :
    (performed i s).2.ok = true ∧ (performed i s).2.err = .none := by
  cases i <;> exact ⟨by simp [performed], by simp [performed]⟩

/-- No operation writes STATUS.CFGERR (10_state.md R20). -/
theorem performed_cfgErr (i : Instr) (s : State) :
    (performed i s).1.status.cfgErr = s.arch.status.cfgErr := by
  cases i <;> simp [performed, Arch.receive, demodArch]

/-! ### One step -/

theorem step_of_port {s : State} {w : Nat} {rest : List Nat} (h : s.port = w :: rest) :
    step s = match decode (numWidth s.cfg.num) w with
      | .ok i => exec i (s.withPort rest)
      | .error e => execUndecoded e (s.withPort rest) := by
  unfold step
  rw [takeWord_of_port s h]
  rfl

theorem step_of_idle_port {s : State} (h : s.port = []) : step s = .next s := by
  unfold step takeWord
  rw [h]

/-- The one inversion lemma of `step`: nothing was presented, or an operation was executed, or the word
was refused with ILLOP. -/
theorem step_next {s t : State} (h : step s = .next t) :
    (s.port = [] ∧ t = s) ∨
    (∃ w rest i, s.port = w :: rest ∧ decode (numWidth s.cfg.num) w = .ok i ∧
      exec i (s.withPort rest) = .next t) ∨
    (∃ w rest op, s.port = w :: rest ∧ decode (numWidth s.cfg.num) w = .error (.reserved op) ∧
      t = (s.withPort rest).refuse .illop) := by
  cases hp : s.port with
  | nil => rw [step_of_idle_port hp] at h; cases h; exact .inl ⟨rfl, rfl⟩
  | cons w rest =>
    rw [step_of_port hp] at h
    cases hd : decode (numWidth s.cfg.num) w with
    | ok i => rw [hd] at h; exact .inr (.inl ⟨w, rest, i, rfl, hd, h⟩)
    | error e =>
      rw [hd] at h
      cases e with
      | reserved op => cases h; exact .inr (.inr ⟨w, rest, op, rfl, hd, rfl⟩)
      | overlong => cases h

end Sys2Proof.Machine
end

