-- ==== Sys2Proof/Laws/Num.lean ====
section
/-! SUPPORT. What is known of every configured numeric domain: 0 is one of its finite values, a finite value
lies within its encoding, and SIN gives an encoding; and that the rationals' operations are the exact field's. -/

namespace Sys2Proof.Machine

theorem isFinite_zero (fmt : NumFormat) : (numOps fmt).isFinite (numOps fmt).zero = true := by
  cases fmt with
  | rational => rfl
  | binary32 => decide
  | binary64 => decide
  | uninterpreted id w => simp [numOps, openOps, clip, fitsIn_lowBits]

/-- A finite value is an encoding of NUM_W bits. -/
theorem fitsIn_of_isFinite {fmt : NumFormat} {x : NUM} (h : (numOps fmt).isFinite x = true) :
    fitsIn (numWidth fmt) x.enc = true := by
  cases fmt with
  | rational => rfl
  | binary32 =>
    have := of_decide_eq_true (Bool.and_eq_true_iff.mp h).1
    simpa [BinFormat.signBit, BinFormat.b32, numWidth] using this
  | binary64 =>
    have := of_decide_eq_true (Bool.and_eq_true_iff.mp h).1
    simpa [BinFormat.signBit, BinFormat.b64, numWidth] using this
  | uninterpreted id w => exact (Bool.and_eq_true_iff.mp h).1

/-- The Sample MODB emits fits the `NUM_W` bits of `resp.val`. -/
theorem sinAt_fits (fmt : NumFormat) (f : Waveform) (x : NUM) :
    fitsIn (numWidth fmt) (sinAt fmt f x).enc = true := by
  unfold sinAt
  split <;> exact fitsIn_lowBits _ _

/-! ### The rationals -/

@[simp] theorem intCode_codeInt (z : Int) : intCode (codeInt z) = z := by
  unfold intCode codeInt
  split <;> split <;> omega

/-- The power of 2 an encoding carries is found again. -/
theorem gcd_two_pow_log2 (s k : Nat) :
    Nat.gcd (2 ^ s * (1 + 2 * k)) (2 ^ Nat.log2 (2 ^ s * (1 + 2 * k))) = 2 ^ s := by
  have h0 : 2 ^ s * (1 + 2 * k) ≠ 0 := by positivity
  have hs : s ≤ Nat.log2 (2 ^ s * (1 + 2 * k)) :=
    (Nat.le_log2 h0).mpr (Nat.le_mul_of_pos_right _ (by omega))
  obtain ⟨d, hd⟩ := Nat.exists_eq_add_of_le hs
  have hc : Nat.Coprime (1 + 2 * k) (2 ^ d) :=
    Nat.Coprime.pow_right d (Nat.coprime_two_right.mpr (by simp))
  rw [hd, Nat.pow_add, Nat.gcd_mul_left, hc, Nat.mul_one]

/-- Every rational comes back from its encoding: no value of the exact field is lost at the port. -/
@[simp] theorem toRat_ofRat (q : Rat) : toRat (ofRat q) = q := by
  have hden := q.den_pos
  unfold toRat ofRat
  dsimp only
  generalize hs : Nat.log2 (2 * (q.den - 1) + 1) = s
  have hb : q.den - 1 < 2 ^ s := by
    have := (Nat.log2_lt (n := 2 * (q.den - 1) + 1) (by omega) (k := s + 1)).mp (by omega)
    rw [Nat.pow_succ] at this
    omega
  have hp : 0 < 2 ^ s := Nat.two_pow_pos s
  have hm : 2 ^ s * (1 + 2 * (q.den - 1 + 2 ^ s * codeInt q.num)) - 1 + 1 =
      2 ^ s * (1 + 2 * (q.den - 1 + 2 ^ s * codeInt q.num)) :=
    Nat.sub_add_cancel (Nat.mul_pos hp (by omega))
  rw [hm, gcd_two_pow_log2, Nat.mul_div_cancel_left _ hp]
  have hr : (1 + 2 * (q.den - 1 + 2 ^ s * codeInt q.num)) / 2 = q.den - 1 + 2 ^ s * codeInt q.num := by
    omega
  rw [hr, Nat.add_mul_div_left _ _ hp, Nat.div_eq_of_lt hb, Nat.add_mul_mod_self_left,
    Nat.mod_eq_of_lt hb, Nat.zero_add, intCode_codeInt, Nat.sub_add_cancel hden]
  exact Rat.mkRat_self q

end Sys2Proof.Machine
end

