-- ==== Sys2Proof/Laws/Invariant.lean ====
section
/-! SUPPORT. What each unit's step does to that unit's part of the invariant of Safety.lean, one lemma a unit. -/

namespace Sys2Proof.Machine

variable {c : Cfg}

/-- What a valid CFG promises (60_exceptions.md R181). -/
theorem cfgValid_iff : cfgValid c = true ↔
    1 ≤ c.l ∧ 1 ≤ c.win ∧ c.zmin ≤ c.win ∧ 1 ≤ c.settle ∧ 1 ≤ c.dropRun ∧
      ∀ cap, c.txqCap = some cap → 10 * c.l ≤ cap := by
  have hc : capHoldsFrame c.l c.txqCap = true ↔ ∀ cap, c.txqCap = some cap → 10 * c.l ≤ cap := by
    cases c.txqCap <;> simp [capHoldsFrame]
  simp only [cfgValid, Bool.and_eq_true, decide_eq_true_eq, hc, and_assoc]

/-! ### The tracker -/

/-- The five rows keep the run counter's range (10_state.md R41). -/
theorem carrierRule_range {dropRun run : Nat} {st : CarrierState} (detect low sgn : Bool)
    (hd : 1 ≤ dropRun) (h : run + 1 ≤ dropRun ∧ (st = .idle → run = 0)) :
    (carrierRule dropRun detect low sgn st run).2.1 + 1 ≤ dropRun ∧
      ((carrierRule dropRun detect low sgn st run).1 = .idle →
        (carrierRule dropRun detect low sgn st run).2.1 = 0) := by
  obtain ⟨h1, h2⟩ := h
  by_cases hr : dropRun ≤ run + 1 <;> cases st <;> cases detect <;> cases low <;>
    simp [carrierRule, hr] at h2 ⊢ <;> omega

/-- CT.DEC keeps the tracker's part of the invariant. -/
theorem ctDec_carrierInv {ct : CarrierTracker NUM} (em es : NUM) (hd : 1 ≤ c.dropRun)
    (h : CarrierInv c ct) : CarrierInv c (ctDec c ct em es).ct :=
  carrierRule_range _ _ _ hd h

/-- The state the smoothing stage keeps is one of the values the overflow check looks at. -/
theorem ctDec_f_mem (ct : CarrierTracker NUM) (em es : NUM) :
    (ctDec c ct em es).ct.f ∈ (ctDec c ct em es).steps := by
  simp [ctDec, carrierDecide, smooth]

/-! ### The receiver -/

theorem orBit_toNat_lt {acc : Byte} {i : Nat} (b : Bit) (h : acc.toNat < 2 ^ i) :
    (orBit acc b i).toNat < 2 ^ (i + 1) := by
  unfold orBit
  rw [BitVec.toNat_or]
  refine Nat.or_lt_two_pow ?_ ?_
  · rw [Nat.pow_succ]; omega
  · cases b
    · simp
    · have h1 : 1 <<< i = 2 ^ i := by simp [Nat.shiftLeft_eq]
      simp only [Bit.toNum_true, BitVec.toNat_shiftLeft, BitVec.toNat_ofNat]
      refine (Nat.mod_le _ _).trans_lt ?_
      rw [Nat.one_mod, h1, Nat.pow_succ]
      have := Nat.two_pow_pos i
      omega

/-- URX.STEP keeps the receiver's schedule (44_uart_receiver.md R141 to R144). -/
theorem urxStep_receiverInv {u : UartRx} (b rdy : Bit) (hv : cfgValid c = true)
    (h : ReceiverInv c u) : ReceiverInv c (urxStep c u b rdy).1 := by
  obtain ⟨hl, hw, _, hse, _, _⟩ := cfgValid_iff.mp hv
  obtain ⟨h1, h2⟩ := h
  cases hs : u.state <;> simp only [hs] at h2 <;> simp only [urxStep, hs]
  · have := winPush_length_le c.win b u.win hw h1
    unfold urxIdle
    dsimp only
    split
    · exact ⟨this, rfl, rfl, hse⟩
    · exact ⟨this, by simpa [hs] using h2⟩
  · unfold urxMidBit
    split
    · exact ⟨h1, by simp [h2]; omega⟩
    · exact ⟨h1, by simp [h2, hs]; omega⟩
  · unfold urxReceiving
    dsimp only
    split
    · by_cases h8 : u.bitIndex = 7
      · simp only [h8] at *
        exact ⟨h1, by simp; omega⟩
      · refine ⟨h1, ?_⟩
        have h8' : ¬(u.bitIndex + 1 = 8) := by omega
        simp only [h8', if_false]
        exact ⟨by omega, orBit_toNat_lt b h2.2.1, by nlinarith, by nlinarith⟩
    · refine ⟨h1, ?_⟩
      simp only [hs]
      exact ⟨h2.1, h2.2.1, by omega, by omega⟩
  · unfold urxStopBit
    dsimp only
    split
    · exact ⟨Nat.zero_le _, by simp; omega⟩
    · refine ⟨h1, ?_⟩
      simp only [hs]
      omega

/-! ### The demodulator and the modulator -/

/-- DEMOD.STEP that has a next state keeps the core's invariant. -/
theorem demodArch_archInv {a : Arch} {x : NUM} (hv : cfgValid c = true) (h : ArchInv c a)
    (hf : demodFinite c a x = true) : ArchInv c (demodArch c a x) := by
  obtain ⟨hl, _, _, _, hd, _⟩ := cfgValid_iff.mp hv
  have hall : ∀ y ∈ (demodOut c a x).steps, FiniteNum c y := List.all_eq_true.mp hf
  refine ⟨?_, ⟨?_, ?_, ?_, ?_, ?_, ?_, h.nums.2.2.2.2.2.2⟩, ctDec_carrierInv _ _ hd h.carrier,
    h.receiver, h.queue⟩
  · simp only [demodArch, demodOut, demodulate, Arch.demodRegs, Arch.setDemod_dl]
    rw [shiftIn_length _ (by rw [h.dlLength]; exact hl), h.dlLength]
  · intro y hy
    rcases mem_of_mem_shiftIn hy with rfl | hy
    · exact hall _ (by simp [demodOut, demodulate, corrUpd])
    · exact h.nums.1 y hy
  all_goals exact hall _ (by simp [demodArch, demodOut, demodulate, corrUpd, carrierDecide, smooth])

/-- A phase advance that has a next state gives a finite phase. -/
theorem phaseStep_finite {b : Bit} {p : NUM} (h : phaseFinite c b p = true) :
    FiniteNum c (phaseStep c b p).1 := by
  refine List.all_eq_true.mp h _ ?_
  unfold phaseStep phaseAdvance
  dsimp only
  split <;> simp

/-! ### Reset and responses -/

/-- The reset values of a valid CFG are in order (10_state.md R44). -/
theorem initial_archInv (hv : cfgValid c = true) : ArchInv c (Arch.initial c) := by
  obtain ⟨_, _, _, _, hd, _⟩ := cfgValid_iff.mp hv
  have hz := isFinite_zero c.num
  refine ⟨by simp [Arch.initial], ⟨?_, hz, hz, hz, hz, hz, hz⟩,
    ⟨by simpa [Arch.initial] using hd, by simp [Arch.initial]⟩,
    ⟨by simp [Arch.initial], by simp [Arch.initial]⟩, ?_⟩
  · intro y hy
    simp only [Arch.initial, List.mem_replicate] at hy
    rw [hy.2]
    exact hz
  · intro cap _
    simp [Arch.initial]

/-- The STATUS word has 8 bits (30_encoding.md R92). -/
theorem statusWord_lt (a : Arch) : statusWord a < 256 := by
  have h1 : a.ct.state.code < 2 := by cases a.ct.state <;> decide
  have h2 : a.urx.state.code < 4 := by cases a.urx.state <;> decide
  have h3 := Bit.toNum_lt_two a.status.ferr
  have h4 := Bit.toNum_lt_two a.status.rxovr
  have h5 := Bit.toNum_lt_two (txEmpty a.txq)
  unfold statusWord
  split <;> omega

/-- A performed operation's response fits its word (30_encoding.md R83). -/
theorem performed_responseInv (i : Instr) (s : State) : ResponseInv s.cfg (performed i s).2 := by
  refine ⟨?_, by simp [performed_ok]⟩
  have h0 := byte_fitsIn_argWidth (numWidth s.cfg.num) (x := 0) (by decide)
  have h1 := fitsIn_argWidth (sinAt_fits s.cfg.num s.cfg.sin s.arch.phase)
  have h2 := byte_fitsIn_argWidth (numWidth s.cfg.num) (statusWord_lt s.arch)
  cases i <;> simpa [performed, modSample]

end Sys2Proof.Machine
end

