-- ==== Sys2Proof/Laws/PerInstr.lean ====
section
/-! SUPPORT. Statements about every operation as syntax, one lemma a constructor. -/

/-- The word of a well-formed operation has the length of an operation word and carries the operation's
code in its low four bits (30_encoding.md R80, R85). -/
def Sys2Proof.Laws.EncodeFits.Statement (i : Sys2Proof.Instr) : Prop :=
  ∀ numW : Option Nat, i.wf numW = true →
    Sys2Proof.Machine.fitsIn (Sys2Proof.Machine.wordWidth numW) (Sys2Proof.encode i) = true ∧
      Sys2Proof.Machine.opField (Sys2Proof.encode i) = i.opcode

namespace Sys2Proof.Laws.EncodeFits

open Sys2Proof.Machine

theorem nop : Statement .nop := fun _ h =>
  ⟨encode_fits_of_wf h, opField_wordOf _ _ (opcode_lt _)⟩

theorem rxs (x : NUM) (rdy : Bit) : Statement (.rxs x rdy) := fun _ h =>
  ⟨encode_fits_of_wf h, opField_wordOf _ _ (opcode_lt (.rxs x rdy))⟩

theorem dems (x : NUM) : Statement (.dems x) := fun _ h =>
  ⟨encode_fits_of_wf h, opField_wordOf _ _ (opcode_lt (.dems x))⟩

theorem rxb (b rdy : Bit) : Statement (.rxb b rdy) := fun _ h =>
  ⟨encode_fits_of_wf h, opField_wordOf _ _ (opcode_lt (.rxb b rdy))⟩

theorem txq (y : Byte) : Statement (.txq y) := fun _ h =>
  ⟨encode_fits_of_wf h, opField_wordOf _ _ (opcode_lt (.txq y))⟩

theorem txb : Statement .txb := fun _ h =>
  ⟨encode_fits_of_wf h, opField_wordOf _ _ (opcode_lt .txb)⟩

theorem modb (b : Bit) : Statement (.modb b) := fun _ h =>
  ⟨encode_fits_of_wf h, opField_wordOf _ _ (opcode_lt (.modb b))⟩

theorem txs : Statement .txs := fun _ h =>
  ⟨encode_fits_of_wf h, opField_wordOf _ _ (opcode_lt .txs)⟩

theorem stat : Statement .stat := fun _ h =>
  ⟨encode_fits_of_wf h, opField_wordOf _ _ (opcode_lt .stat)⟩

theorem rst : Statement .rst := fun _ h =>
  ⟨encode_fits_of_wf h, opField_wordOf _ _ (opcode_lt .rst)⟩

end Sys2Proof.Laws.EncodeFits
end

