-- ==== Sys2Proof/Laws/Rational.lean ====
section
/-! SUPPORT. The core's arithmetic with NUM the rationals is that of the exact field, operation by operation and
unit by unit (00_scope.md R10). -/

namespace Sys2Proof.Machine

section
variable (x y : NUM)

@[simp] theorem toRat_add : toRat (rationalOps.add x y) = exactOps.add (toRat x) (toRat y) := toRat_ofRat _
@[simp] theorem toRat_sub : toRat (rationalOps.sub x y) = exactOps.sub (toRat x) (toRat y) := toRat_ofRat _
@[simp] theorem toRat_mul : toRat (rationalOps.mul x y) = exactOps.mul (toRat x) (toRat y) := toRat_ofRat _
@[simp] theorem toRat_neg : toRat (rationalOps.neg x) = exactOps.neg (toRat x) := toRat_ofRat _
@[simp] theorem toRat_abs : toRat (rationalOps.abs x) = exactOps.abs (toRat x) := toRat_ofRat _
@[simp] theorem rationalOps_lt : rationalOps.lt x y = exactOps.lt (toRat x) (toRat y) := rfl
@[simp] theorem rationalOps_le : rationalOps.le x y = exactOps.le (toRat x) (toRat y) := rfl
@[simp] theorem rationalOps_isFinite : rationalOps.isFinite x = true := rfl
@[simp] theorem toRat_zero : toRat rationalOps.zero = exactOps.zero := toRat_ofRat _

end

/-- CORR.UPD on encodings is CORR.UPD on the rationals they encode. -/
theorem corrUpd_toRat (k : ToneCoef NUM) (i0 q0 s d : NUM) :
    let o := corrUpd rationalOps k i0 q0 s d
    let e := corrUpd exactOps (toneMap toRat k) (toRat i0) (toRat q0) (toRat s) (toRat d)
    toRat o.i = e.i ∧ toRat o.q = e.q ∧ toRat o.energy = e.energy := by
  simp [corrUpd, toneMap]

/-- CT.DEC on encodings is CT.DEC on the rationals they encode. -/
theorem carrierDecide_toRat (k : TrackerCoef NUM) (ct : CarrierTracker NUM) (em es : NUM) :
    let o := carrierDecide rationalOps k ct em es
    let e := carrierDecide exactOps (k.map toRat) (ct.map toRat) (toRat em) (toRat es)
    o.ct.map toRat = e.ct ∧ o.bit = e.bit := by
  simp [carrierDecide, smooth, silenceGuard, TrackerCoef.map, CarrierTracker.map]

/-- The delayed sample is the same sample. -/
theorem delayed_map {α β : Type} (f : α → β) (z : α) (l : Nat) (dl : List α) :
    f (delayed z l dl) = delayed (f z) l (dl.map f) := by
  simp [delayed, List.getD_eq_getElem?_getD]

theorem shiftIn_map {α β : Type} (f : α → β) (x : α) (dl : List α) :
    (shiftIn x dl).map f = shiftIn (f x) (dl.map f) := by
  simp [shiftIn, List.map_dropLast]

end Sys2Proof.Machine
end

