-- ==== Sys2Proof/Laws/Runs.lean ====
section
/-! SUPPORT. Runs of operations: how a run begins, how two runs join, and a run of receiver inputs as a run of
URX.STEP alone. -/

namespace Sys2Proof.Machine

/-- A run whose first operation is performed. -/
theorem runOps_cons {i : Instr} {s : State} (is : List Instr) (hr : refusalOf i s = .none)
    (ho : noOverflow i s = true) :
    runOps (i :: is) s =
      (runOps is (s.commit (performed i s).1 (performed i s).2)).map
        fun p => (p.1, (performed i s).2 :: p.2) := by
  simp [runOps, exec_performed hr ho]

/-- What the first operation of a run that does not stop did. -/
theorem runOps_cons_some {i : Instr} {is : List Instr} {s t : State} {rs : List Response}
    (h : runOps (i :: is) s = some (t, rs)) :
    ∃ u qs, exec i s = .next u ∧ runOps is u = some (t, qs) ∧ rs = u.resp.toList ++ qs := by
  unfold runOps at h
  split at h
  · rename_i u hu
    obtain ⟨p, hp, hq⟩ := Option.map_eq_some_iff.mp h
    cases hq
    exact ⟨u, p.2, hu, hp, rfl⟩
  · cases h

/-- A run is cut anywhere without effect (30_encoding.md R97: buffer boundaries have no effect). -/
theorem runOps_append (is js : List Instr) (s : State) :
    runOps (is ++ js) s =
      (runOps is s).bind fun p => (runOps js p.1).map fun q => (q.1, p.2 ++ q.2) := by
  induction is generalizing s with
  | nil => cases h : runOps js s <;> simp [runOps, h]
  | cons i is ih =>
    cases h : exec i s <;> simp only [List.cons_append, runOps, h, Option.bind_none]
    rename_i t
    rw [ih]
    cases runOps is t <;> simp [Function.comp_def]

/-- URX.STEP on each input in turn, with the deliveries. -/
def rxRun (c : Cfg) (rdy : Bit) : UartRx → List Bit → UartRx × List (Option Delivery)
  | u, [] => (u, [])
  | u, b :: bs =>
    let r := urxStep c u b rdy
    let q := rxRun c rdy r.1 bs
    (q.1, r.2 :: q.2)

theorem rxRun_append (c : Cfg) (rdy : Bit) (u : UartRx) (bs cs : List Bit) :
    rxRun c rdy u (bs ++ cs) =
      ((rxRun c rdy (rxRun c rdy u bs).1 cs).1,
        (rxRun c rdy u bs).2 ++ (rxRun c rdy (rxRun c rdy u bs).1 cs).2) := by
  induction bs generalizing u with
  | nil => rfl
  | cons b bs ih => simp [rxRun, ih]

@[simp] theorem rxRun_length (c : Cfg) (rdy : Bit) (u : UartRx) (bs : List Bit) :
    (rxRun c rdy u bs).2.length = bs.length := by
  induction bs generalizing u with
  | nil => rfl
  | cons b bs ih => simp [rxRun, ih]

/-- A run of RXBs of a constructed core is a run of its receiver; nothing else of the core but the sticky
flags moves (44_uart_receiver.md R140). -/
theorem runOps_rxb (rdy : Bit) (bs : List Bit) (s : State) (h : s.arch.status.cfgErr = false) :
    ∃ t st, runOps (bs.map (.rxb · rdy)) s =
        some (t, (rxRun s.cfg rdy s.arch.urx bs).2.map (Response.ofDelivery false)) ∧
      t.arch = s.arch.setReceiver (rxRun s.cfg rdy s.arch.urx bs).1 st ∧ t.cfg = s.cfg ∧
      t.arch.status.cfgErr = false := by
  induction bs generalizing s with
  | nil => exact ⟨s, s.arch.status, rfl, rfl, rfl, h⟩
  | cons b bs ih =>
    have hr : refusalOf (.rxb b rdy) s = .none := by simp [refusalOf, h]
    obtain ⟨t, st, h1, h2, h3, h4⟩ := ih (s.commit (performed (.rxb b rdy) s).1 (performed (.rxb b rdy) s).2)
      ((performed_cfgErr _ _).trans h)
    refine ⟨t, st, ?_, h2, h3, h4⟩
    rw [List.map_cons, runOps_cons _ hr rfl, h1]
    rfl

end Sys2Proof.Machine
end

