-- ==== Sys2Proof/Laws/Receiver.lean ====
section
/-! SUPPORT. The receiver run through one state at a time: what a stretch of inputs does in MidBit, over one
symbol of Receiving, over StopBit, and on an idle line (44_uart_receiver.md R141 to R144, R150). -/

namespace Sys2Proof.Machine

variable (c : Cfg) (rdy : Bit)

/-- Inputs that do not reach the settle count are only counted (R142). -/
theorem rxRun_midBit (bs : List Bit) (u : UartRx) (hu : u.state = .midBit)
    (h : u.cnt + bs.length < c.settle) :
    rxRun c rdy u bs = ({ u with cnt := u.cnt + bs.length }, List.replicate bs.length none) := by
  induction bs generalizing u with
  | nil => rfl
  | cons b bs ih =>
    simp only [List.length_cons] at h
    simp only [rxRun, urxStep, hu, urxMidBit]
    rw [if_neg (by omega), ih _ (by simp) (by simp; omega)]
    simp [List.replicate_succ]
    omega

/-- SETTLE inputs lead from the edge to Receiving (R142). -/
theorem rxRun_settle (bs : List Bit) (u : UartRx) (hu : u.state = .midBit) (h0 : u.cnt = 0)
    (hs : 1 ≤ c.settle) (h : bs.length = c.settle) :
    rxRun c rdy u bs =
      ({ u with state := .receiving, cnt := 0 }, List.replicate bs.length none) := by
  obtain ⟨as, b, rfl⟩ : ∃ as b, bs = as ++ [b] :=
    ⟨bs.dropLast, bs.getLast (by rintro rfl; simp at h; omega), by rw [List.dropLast_append_getLast]⟩
  simp only [List.length_append, List.length_singleton] at h
  rw [rxRun_append, rxRun_midBit c rdy as u hu (by omega)]
  simp only [rxRun, urxStep, urxMidBit, hu]
  rw [if_pos (by omega)]
  simp [List.replicate_succ']

/-- Inputs before the sampling instant are only counted (R143). -/
theorem rxRun_receiving (bs : List Bit) (u : UartRx) (hu : u.state = .receiving)
    (h : u.cnt + bs.length < (u.bitIndex + 1) * c.l) :
    rxRun c rdy u bs = ({ u with cnt := u.cnt + bs.length }, List.replicate bs.length none) := by
  induction bs generalizing u with
  | nil => rfl
  | cons b bs ih =>
    simp only [List.length_cons] at h
    simp only [rxRun, urxStep, hu, urxReceiving]
    rw [if_neg (by omega), ih _ (by simp) (by simp; omega)]
    simp [List.replicate_succ]
    omega

/-- One symbol of Receiving takes its last input as the data bit (R143). -/
theorem rxRun_symbol (bs : List Bit) (b : Bit) (u : UartRx) (hu : u.state = .receiving)
    (h0 : u.cnt = u.bitIndex * c.l) (h : bs.length + 1 = c.l) :
    rxRun c rdy u (bs ++ [b]) =
      ({ u with
          state := if u.bitIndex + 1 = 8 then .stopBit else .receiving
          cnt := (u.bitIndex + 1) * c.l
          bitIndex := u.bitIndex + 1
          acc := orBit u.acc b u.bitIndex }, List.replicate c.l none) := by
  have e : (u.bitIndex + 1) * c.l = u.bitIndex * c.l + c.l := by ring
  rw [rxRun_append, rxRun_receiving c rdy bs u hu (by omega)]
  simp only [rxRun, urxStep, hu, urxReceiving]
  rw [if_pos (by omega)]
  simp only [Prod.mk.injEq, UartRx.mk.injEq, true_and]
  refine ⟨?_, by rw [← h, List.replicate_succ']⟩
  rw [h0, e]
  exact ⟨by omega, trivial⟩

/-- Inputs before the stop instant are only counted (R144). -/
theorem rxRun_stopBit (bs : List Bit) (u : UartRx) (hu : u.state = .stopBit)
    (h : u.cnt + bs.length < 9 * c.l) :
    rxRun c rdy u bs = ({ u with cnt := u.cnt + bs.length }, List.replicate bs.length none) := by
  induction bs generalizing u with
  | nil => rfl
  | cons b bs ih =>
    simp only [List.length_cons] at h
    simp only [rxRun, urxStep, hu, urxStopBit]
    rw [if_neg (by omega), ih _ (by simp) (by simp; omega)]
    simp [List.replicate_succ]
    omega

/-- `L` inputs lead through StopBit, and the last delivers (R144 to R146). -/
theorem rxRun_delivery (bs : List Bit) (b : Bit) (u : UartRx) (hu : u.state = .stopBit)
    (h0 : u.cnt = 8 * c.l) (h : bs.length + 1 = c.l) :
    rxRun c rdy u (bs ++ [b]) =
      ({ u with state := .idle, win := [], cnt := 9 * c.l },
        List.replicate (c.l - 1) none ++ [some ⟨u.acc, !b, !rdy⟩]) := by
  rw [rxRun_append, rxRun_stopBit c rdy bs u hu (by omega)]
  simp only [rxRun, urxStep, hu, urxStopBit]
  rw [if_pos (by omega)]
  simp only [Prod.mk.injEq, UartRx.mk.injEq, true_and]
  exact ⟨by simp; omega, by rw [← h]; simp⟩

/-- On an idle line the window fills with ones and nothing else happens (R150). -/
theorem rxRun_idle (hw : 1 ≤ c.win) (n : Nat) (u : UartRx) (h : u.state = .idle)
    (ho : ∀ b ∈ u.win, b = true) (hl : u.win.length ≤ c.win) :
    ∃ w : List Bit, (∀ b ∈ w, b = true) ∧ w.length ≤ c.win ∧
      rxRun c rdy u (List.replicate n true) = ({ u with win := w }, List.replicate n none) := by
  induction n generalizing u with
  | zero => exact ⟨u.win, ho, hl, rfl⟩
  | succ n ih =>
    simp only [List.replicate_succ, rxRun, urxStep, h]
    have e : urxIdle c u true = { u with win := winPush c.win true u.win } := by
      simp [urxIdle, startQualified]
    rw [e]
    obtain ⟨w, h1, h2, h3⟩ := ih { u with win := winPush c.win true u.win } h
      (by
        intro x hx
        rcases mem_of_mem_winPush hx with rfl | hx
        · rfl
        · exact ho _ hx)
      (winPush_length_le _ _ _ hw hl)
    exact ⟨w, h1, h2, by rw [h3]; simp [h]⟩

end Sys2Proof.Machine
end

