-- ==== Sys2Proof/Tests/Slice0.lean ====
section
/-! SUPPORT. Tests of the model against numbers of spec/95_test_vectors.md, and a witness for the hypotheses of
every statement that has some. No expected value comes from the model. -/

open Sys2Proof Sys2Proof.Machine

namespace Sys2Proof.Tests

set_option Elab.async false

/-! ### Helpers -/

/-- The state after the step that performs the word `w`. -/
def after (s : State) (w : Nat) : Option State :=
  match step (s.present w) with
  | .next t => some t
  | .fault _ => none
  | .refused _ => none

/-- The response word of that step. -/
def answer (s : State) (w : Nat) : Option Nat := (after s w).bind fun t => t.resp.map Response.word

/-- The core's state after that step. -/
def archAfter (s : State) (w : Nat) : Option Arch := (after s w).map State.arch

/-- TV1 at reset with another state of the core. -/
def at_ (a : Arch) : State := { State.reset with arch := a }

def a0 : Arch := State.reset.arch

/-- binary32 encodings used below (the short dyadic numbers of 95_test_vectors.md). -/
def one : NUM := ⟨0x3F800000⟩
def zero : NUM := ⟨0⟩
def minusOne : NUM := ⟨0xBF800000⟩
def quarter : NUM := ⟨0x3E800000⟩
def half : NUM := ⟨0x3F000000⟩
def eighth : NUM := ⟨0x3E000000⟩
def sixteenth : NUM := ⟨0x3D800000⟩
def threeQuarters : NUM := ⟨0x3F400000⟩
/-- The largest finite binary32. -/
def big : NUM := ⟨0x7F7FFFFF⟩

/-- TV1 with `L = 0`: construction fails (V13). -/
def unconstructed : State := State.construct { tv1 with l := 0 }

/-- The receiver in StopBit, one input before delivery (P2 before input 41). -/
def stopping : State := at_ { a0 with urx := ⟨.stopBit, [false, false], 35, 8, 0xA5⟩ }

/-- The receiver at the entry of StopBit (P2 after input 37). -/
def stopBitEntered : State := at_ { a0 with urx := ⟨.stopBit, [false, false], 32, 8, 0xA5⟩ }

/-- A phase and a phase step whose sum overflows binary32. -/
def loud : State := { at_ { a0 with phase := big } with cfg := { tv1 with dphi1 := big } }

/-- TV1 with NUM the rationals. -/
def tv1Exact : Cfg :=
  { tv1 with
    num := .rational
    space := ⟨ofRat (-1 / 2), ofRat 0, ofRat (1 / 16), ofRat 0⟩
    mark := ⟨ofRat 0, ofRat (1 / 2), ofRat (1 / 16), ofRat 0⟩
    lpfA0 := ofRat 1, lpfB1 := ofRat 0, detectT := ofRat (1 / 2), dropT := ofRat (1 / 8), silenceT := ofRat 0
    dphi0 := ofRat (1 / 2), dphi1 := ofRat (1 / 4), twoPi := ofRat 1 }

/-! ### WellFormed refuses an operand that is no encoding -/

theorem test_wf_rxs_too_wide : Instr.wf (some 32) (.rxs ⟨0x100000000⟩ true) = false := by decide
theorem test_wf_dems_too_wide : Instr.wf (some 32) (.dems ⟨0x100000000⟩) = false := by decide
theorem test_wf_rxs_widest : Instr.wf (some 32) (.rxs ⟨0xFFFFFFFF⟩ true) = true := by decide

/-! ### Decoding, from the words of 95_test_vectors.md section 0 and V13 -/

theorem test_decode_nop : decode (some 32) 0x10 = .ok .nop := by rfl
theorem test_decode_nop_zero : decode (some 32) 0 = .ok .nop := by rfl
theorem test_decode_rxs : decode (some 32) 0x07F0000011 = .ok (.rxs one true) := by rfl
theorem test_decode_rxs_not_ready : decode (some 32) 0x07F0000001 = .ok (.rxs one false) := by rfl
theorem test_decode_dems : decode (some 32) 0x17F0000012 = .ok (.dems minusOne) := by rfl
theorem test_decode_rxb : decode (some 32) 0x33 = .ok (.rxb true true) := by rfl
theorem test_decode_rxb_zero_not_ready : decode (some 32) 0x03 = .ok (.rxb false false) := by rfl
theorem test_decode_rxb_ignored_arg : decode (some 32) 0x73 = .ok (.rxb true true) := by rfl
theorem test_decode_txq : decode (some 32) 0x14B4 = .ok (.txq 0xA5) := by rfl
theorem test_decode_txb : decode (some 32) 0x15 = .ok .txb := by rfl
theorem test_decode_txb_ignored_fields : decode (some 32) 0x14A5 = .ok .txb := by rfl
theorem test_decode_modb_space : decode (some 32) 0x16 = .ok (.modb false) := by rfl
theorem test_decode_modb_mark : decode (some 32) 0x36 = .ok (.modb true) := by rfl
theorem test_decode_txs : decode (some 32) 0x17 = .ok .txs := by rfl
theorem test_decode_stat : decode (some 32) 0x18 = .ok .stat := by rfl
theorem test_decode_rst : decode (some 32) 0x1F = .ok .rst := by rfl
theorem test_decode_reserved_first : decode (some 32) 0x19 = .error (.reserved 9) := by rfl
theorem test_decode_reserved_last : decode (some 32) 0x1E = .error (.reserved 14) := by rfl
theorem test_decode_overlong : decode (some 32) (2 ^ 37) = .error .overlong := by rfl

theorem test_encode_words :
    encode .nop = 0x10 ∧ encode (.rxs minusOne true) = 0x17F0000011 ∧ encode (.dems one) = 0x07F0000012 ∧
      encode (.rxb true false) = 0x23 ∧ encode (.txq 0x55) = 0xAB4 ∧ encode .txb = 0x15 ∧
      encode (.modb true) = 0x36 ∧ encode .txs = 0x17 ∧ encode .stat = 0x18 ∧ encode .rst = 0x1F := by decide

theorem test_table_word : decodeTableWord 8 0x18 = some .stat ∧ decodeTableWord 4 9 = none := by decide

/-! ### Construction (V13) -/

theorem test_construction_fails :
    ∀ c ∈ [{ tv1 with l := 0 }, { tv1 with zmin := 3 }, { tv1 with settle := 0 }, { tv1 with dropRun := 0 },
        { tv1 with win := 0, zmin := 0 }, { tv1 with txqCap := some 39 }],
      (State.construct c).arch.status.cfgErr = true := by decide +kernel

theorem test_construction_at_the_bounds :
    ∀ c ∈ [tv1, refCfg, { tv1 with txqCap := some 40 }, { tv1 with l := 1, win := 1, zmin := 1 }],
      (State.construct c).arch.status.cfgErr = false := by decide +kernel

/-! ### One step each -/

theorem test_nop : answer State.reset 0x10 = some 0x1 ∧ archAfter State.reset 0x10 = some a0 := by
  decide +kernel

/-- The first step after reset runs the word the host presents. -/
theorem test_fetch : ∃ t, step (State.reset.withFetchWord 37 0x18) = .next t ∧
    t.resp.map Response.word = some 0x200001 := ⟨_, rfl, by decide +kernel⟩

/-- P3 row 47: the demodulator's numbers, and the delivery of `0xA5`. -/
theorem test_rxs_delivers :
    let s := at_ { a0 with
      dl := [minusOne, zero, one, zero], mark := ⟨⟨0xBFA00000⟩, zero⟩, space := ⟨⟨0xBF400000⟩, zero⟩
      ct := ⟨one, .carrierDetected, 0⟩, urx := stopping.arch.urx }
    answer s 0x11 = some 0xA531 ∧
      (archAfter s 0x11).map (fun a => (a.dl, a.mark, a.space.i, a.ct, a.urx)) =
        some ([zero, minusOne, zero, one], ⟨zero, ⟨0xBF200000⟩⟩, ⟨0x3EC00000⟩,
          ⟨quarter, .carrierDetected, 0⟩, ⟨.idle, [], 36, 8, 0xA5⟩) := by decide +kernel

/-- V13: an infinity and a NaN are refused. -/
theorem test_rxs_not_finite :
    answer State.reset (0x7F800000 * 32 + 0x11) = some 0x8 ∧
      answer State.reset (0x7FC00000 * 32 + 0x11) = some 0x8 := by decide +kernel

/-- V2 row 9: the first space sample turns the sign. -/
theorem test_dems_space :
    let s := at_ { a0 with
      dl := [one, zero, minusOne, zero], mark := ⟨⟨0x3FA00000⟩, zero⟩, space := ⟨threeQuarters, zero⟩
      ct := ⟨one, .carrierDetected, 0⟩ }
    answer s 0x17F0000012 = some 0x1 ∧
      (archAfter s 0x17F0000012).map (fun a => (a.mark, a.space, a.ct)) =
        some (⟨minusOne, ⟨0x3F200000⟩⟩, ⟨⟨0xBFB00000⟩, zero⟩, ⟨⟨0xBF000000⟩, .carrierDetected, 0⟩) := by
  decide +kernel

/-- V2 row 4: the delayed sample is read before the shift. -/
theorem test_dems_delayed :
    let s := at_ { a0 with
      dl := [zero, minusOne, zero, one], mark := ⟨zero, ⟨0xBF200000⟩⟩, space := ⟨⟨0x3EC00000⟩, zero⟩
      ct := ⟨quarter, .carrierDetected, 0⟩ }
    (archAfter s 0x07F0000012).map (fun a => (a.dl, a.mark.i, a.space.i, a.ct.f)) =
      some ([one, zero, minusOne, zero], ⟨0x3FA00000⟩, threeQuarters, one) := by decide +kernel

/-- P2 input 37: the eighth data bit. -/
theorem test_rxb_eighth_bit :
    (archAfter (at_ { a0 with urx := ⟨.receiving, [false, false], 31, 7, 0x25⟩ }) 0x33).map Arch.urx =
      some ⟨.stopBit, [false, false], 32, 8, 0xA5⟩ := by decide +kernel

/-- P6 row 3: a byte lost and badly framed. -/
theorem test_rxb_lost_and_misframed :
    let s := at_ { a0 with urx := ⟨.stopBit, [false, false], 35, 8, 0⟩ }
    answer s 0x03 = some 0xE1 ∧
      (archAfter s 0x03).map (fun a => (a.status, a.urx.state, a.urx.win)) =
        some (⟨true, true, false⟩, .idle, []) := by decide +kernel

/-- V12 (a): the frame of `0xA5`. -/
theorem test_txq_frame :
    (archAfter State.reset 0x14B4).map Arch.txq =
      some ([false, true, false, true, false, false, true, false, true, true].flatMap
        (List.replicate 4)) := by decide +kernel

/-- V12 (b): 41 + 40 > 80. -/
theorem test_txq_full :
    answer (at_ { a0 with txq := List.replicate 41 true }) 0x74 = some 0x6 := by decide +kernel

theorem test_txb_front : let s := at_ { a0 with txq := [false, true] }
    answer s 0x15 = some 0x1 ∧ (archAfter s 0x15).map Arch.txq = some [true] := by decide +kernel

/-- P1 rows 43, 44: idle fill. -/
theorem test_txb_idle_fill :
    answer State.reset 0x15 = some 0x11 ∧ archAfter State.reset 0x15 = some a0 := by decide +kernel

/-- V7 (a) row 3: the output of the phase before. -/
theorem test_modb_emits_first : let s := at_ { a0 with phase := half }
    answer s 0x36 = some 0xBF8000000001 ∧ (archAfter s 0x36).map Arch.phase = some threeQuarters := by
  decide +kernel

/-- V7 (a) row 9: `3/4 + 1/2` wraps to `1/4`. -/
theorem test_modb_wraps : let s := at_ { a0 with phase := threeQuarters }
    answer s 0x16 = some 0x1 ∧ (archAfter s 0x16).map Arch.phase = some quarter := by decide +kernel

/-- P4, the first sample: idle fill, mark tone. -/
theorem test_txs_idle_fill :
    answer State.reset 0x17 = some 0x3F8000000011 ∧
      (archAfter State.reset 0x17).map Arch.phase = some quarter := by decide +kernel

/-- P4, a second sample of a 0 symbol: `val = -1` and the phase wraps exactly to 0. -/
theorem test_txs_space : let s := at_ { a0 with phase := half, txq := [false, true] }
    answer s 0x17 = some 0xBF8000000001 ∧
      (archAfter s 0x17).map (fun a => (a.phase, a.txq)) = some (zero, [true]) := by decide +kernel

/-- V9: `STAT -> val = 0x2A`. -/
theorem test_stat_fields :
    answer (at_ { a0 with
      urx := { a0.urx with state := .midBit }, status := ⟨true, false, false⟩ }) 0x18 = some 0x2A0001 := by
  decide +kernel

/-- V13: an unconstructed core. -/
theorem test_stat_unconstructed :
    answer unconstructed 0x18 = some 0x400001 ∧ answer unconstructed 0x10 = some 0x1 ∧
      answer unconstructed 0x33 = some 0x4 ∧ answer unconstructed 0x19 = some 0x2 := by decide +kernel

/-- P6 rows 8, 9: RST clears the flags and the queue. -/
theorem test_rst : archAfter (at_ { stopping.arch with
    status := ⟨true, true, false⟩, txq := [true], phase := half }) 0x1F = some a0 := by decide +kernel

theorem test_rst_unconstructed : answer unconstructed 0x1F = some 0x4 := by decide +kernel

/-- V3 (a): one update with four coefficients that are not 0, over the exact field. -/
theorem test_correlator_exact :
    let o := corrUpd exactOps ⟨1 / 2, 1 / 4, 1 / 8, -1 / 4⟩ 1 (-2) 3 2
    o.i = 15 / 4 ∧ o.q = -1 / 4 ∧ o.energy = 113 / 8 := by
  simp only [corrUpd, exactOps]
  norm_num

/-- The columns of V4 and V6. -/
def row (c : Cfg) (ct : CarrierTracker NUM) (em es : NUM) : CarrierState × Nat × Bit :=
  let o := ctDec c ct em es
  (o.ct.state, o.ct.run, o.bit)

/-- V4 rows 7, 9 and 10. -/
theorem test_tracker_rows :
    row tv1 ⟨⟨0xBD800000⟩, .carrierDetected, 2⟩ zero sixteenth = (.idle, 0, true) ∧
    row tv1 ⟨quarter, .idle, 0⟩ half zero = (.idle, 0, true) ∧
    row tv1 ⟨half, .idle, 0⟩ zero ⟨0x3F100000⟩ = (.carrierDetected, 0, false) := by decide +kernel

/-- V6 row 2: the guard overrides the bit, the low sample is still counted. -/
theorem test_silence_guard :
    row { tv1 with silenceT := ⟨0x3C800000⟩ } ⟨one, .carrierDetected, 0⟩ zero ⟨0x3C000000⟩ =
      (.carrierDetected, 1, true) := by decide +kernel

/-! ### The core over the rationals -/

theorem test_rational_encoding : ∀ q ∈ [(0 : Rat), 1, -1, 1 / 3, -22 / 7, 1000003 / 1000000],
    toRat (ofRat q) = q := by decide +kernel

/-- V2 row 9, exactly: an operation word carries a rational of any size. -/
theorem test_rational_dems :
    let s := State.construct tv1Exact
    let u : State := { s with arch := { s.arch with
      dl := [ofRat 1, ofRat 0, ofRat (-1), ofRat 0], mark := ⟨ofRat (5 / 4), ofRat 0⟩
      space := ⟨ofRat (3 / 4), ofRat 0⟩, ct := ⟨ofRat 1, .carrierDetected, 0⟩ } }
    answer u (wordOf 2 true (ofRat (-1)).enc) = some 0x1 ∧
      (archAfter u (wordOf 2 true (ofRat (-1)).enc)).map (fun a =>
        (toRat a.mark.i, toRat a.mark.q, toRat a.space.i, toRat a.space.q, toRat a.ct.f)) =
        some (-1, 5 / 8, -11 / 8, 0, -1 / 2) := by decide +kernel

/-- R130, R132 with thirds, which no binary format holds: `2/3 + 1/3` is exactly TWO_PI and wraps to 0. -/
theorem test_rational_modb_wraps :
    let s := State.construct { tv1Exact with dphi1 := ofRat (1 / 3) }
    let u : State := { s with arch := { s.arch with phase := ofRat (2 / 3) } }
    (archAfter u 0x36).map Arch.phase = some (ofRat 0) := by decide +kernel

/-! ### Witnesses: each shows a state and operands that meet a statement's hypotheses together -/

theorem witness_DecodeInvertsEncode : Instr.wf (some 32) (.rxs ⟨0xFFFFFFFF⟩ false) = true := by decide

theorem witness_DecodedOperationFitsItsWord : decode (some 32) 0x1FFFFFFFF1 = .ok (.rxs ⟨0xFFFFFFFF⟩ true) := by rfl

theorem witness_OperationCodesFollowTheTable : 0x1FFFFFFFF1 < 2 ^ (5 + max 32 8) := by decide

/-- Pairs of words that agree on what their format uses, one for each clause. -/
theorem witness_IgnoredFieldsHaveNoEffect :
    ∀ p ∈ [(0x15, 0x14A5), (0x33, 0x73), (0x16, 0x46), (0x14B4, 0x14B4 + 2 ^ 20), (0x12, 0x02), (0x0F, 0x1F)],
      let s := State.reset
      let w : Nat := p.1
      let v : Nat := p.2
      w ≠ v ∧ fitsIn (wordWidth (numWidth s.cfg.num)) w = true ∧
      fitsIn (wordWidth (numWidth s.cfg.num)) v = true ∧
      opField w = opField v ∧ (opField w ≤ 8 ∨ opField w = 15) ∧
      (opField w = 1 ∨ opField w = 3 → rdyField w = rdyField v) ∧
      (opField w = 1 ∨ opField w = 2 →
        lowBits (numWidth s.cfg.num) (argField w) = lowBits (numWidth s.cfg.num) (argField v)) ∧
      (opField w = 3 ∨ opField w = 6 → argField w % 2 = argField v % 2) ∧
      (opField w = 4 → argField w % 2 ^ 8 = argField v % 2 ^ 8) := by decide +kernel

theorem witness_ReservedCodesAreRefused :
    (fitsIn (wordWidth (numWidth State.reset.cfg.num)) 0x09 = true ∧ 9 ≤ opField 0x09 ∧ opField 0x09 ≤ 14) ∧
    (fitsIn (wordWidth (numWidth State.reset.cfg.num)) 0x1E = true ∧ 9 ≤ opField 0x1E ∧ opField 0x1E ≤ 14) := by
  decide +kernel

theorem witness_StepPerformsThePresentedOperation :
    ((State.reset.present 0x18).port = 0x18 :: [] ∧
      decode (numWidth (State.reset.present 0x18).cfg.num) 0x18 = .ok .stat) ∧
    State.reset.port = [] ∧
    ((State.reset.present (2 ^ 37)).port = 2 ^ 37 :: [] ∧
      fitsIn (wordWidth (numWidth (State.reset.present (2 ^ 37)).cfg.num)) (2 ^ 37) = false) :=
  ⟨⟨rfl, rfl⟩, rfl, rfl, by decide +kernel⟩

theorem witness_constructed_and_not :
    State.reset.arch.status.cfgErr = false ∧ unconstructed.arch.status.cfgErr = true ∧
      cfgValid State.reset.cfg = true := by decide +kernel

theorem witness_NonFiniteSampleIsRefused :
    State.reset.arch.status.cfgErr = false ∧
      (numOps State.reset.cfg.num).isFinite ⟨0x7F800000⟩ = false := by decide +kernel

theorem witness_OverflowHasNoNextState :
    (State.reset.arch.status.cfgErr = false ∧ (numOps State.reset.cfg.num).isFinite big = true ∧
      demodFinite State.reset.cfg State.reset.arch big = false) ∧
    (loud.arch.status.cfgErr = false ∧ phaseFinite loud.cfg true loud.arch.phase = false ∧
      (popOrIdle loud.arch.txq).1 = true) := by decide +kernel

theorem witness_RefusedOperationChangesNothing : ∃ t r, exec .rst unconstructed = .next t ∧
    t.resp = some r ∧ r.ok = false := ⟨_, _, rfl, rfl, rfl⟩

theorem witness_ChecksComeInOrder : ∃ t r, exec (.txq 3) (at_ { a0 with txq := List.replicate 41 true }) =
    .next t ∧ t.resp = some r ∧ r.err = .txFull :=
  ⟨_, _, exec_refused (by decide), rfl, by decide⟩

/-- The largest queue that still takes a frame, and the smallest that does not. -/
theorem witness_TxqAppendsTheFrame_QueueFullRefusesTheFrame :
    let s := at_ { a0 with txq := List.replicate 40 true }
    let u := at_ { a0 with txq := List.replicate 41 true }
    (s.arch.status.cfgErr = false ∧
      ∀ cap, s.cfg.txqCap = some cap → s.arch.txq.length + 10 * s.cfg.l ≤ cap) ∧
    (u.arch.status.cfgErr = false ∧ u.cfg.txqCap = some 80 ∧ 80 < u.arch.txq.length + 10 * u.cfg.l) :=
  ⟨⟨rfl, by intro cap h; cases h; decide⟩, rfl, rfl, by decide⟩

theorem witness_QueueFullRefusesTheFrame_unbounded :
    (State.construct refCfg).arch.status.cfgErr = false ∧ (State.construct refCfg).cfg.txqCap = none := by
  decide +kernel

theorem witness_TxbPopsOrIdleFills :
    (at_ { a0 with txq := [false] }).arch.txq = false :: [] ∧ State.reset.arch.txq = [] := by decide +kernel

theorem witness_DrainReturnsTheFrame : State.reset.arch.status.cfgErr = false ∧ State.reset.arch.txq = [] ∧
    ∀ cap, State.reset.cfg.txqCap = some cap → 10 * State.reset.cfg.l ≤ cap :=
  ⟨rfl, rfl, by intro cap h; cases h; decide⟩

theorem witness_ModbEmitsThenAdvances_TxsIsTxbThenModb :
    State.reset.arch.status.cfgErr = false ∧
      phaseFinite State.reset.cfg true State.reset.arch.phase = true ∧
      phaseFinite State.reset.cfg false threeQuarters = true ∧
      phaseFinite State.reset.cfg (popOrIdle State.reset.arch.txq).1 State.reset.arch.phase = true := by
  decide +kernel

/-- The sum just at TWO_PI, and the least phase with a zero step. -/
theorem witness_ExactPhaseStaysInTheCircle :
    ((0 : Rat) ≤ 1 / 4 ∧ (1 / 4 : Rat) < 1 ∧ (0 : Rat) ≤ 3 / 4 ∧ (3 / 4 : Rat) < 1) ∧
      ((0 : Rat) ≤ 0 ∧ (0 : Rat) < 1) := by norm_num

theorem witness_OnlyModulatorAndResetChangeThePhase : ∃ t, exec (.modb true) State.reset = .next t ∧
    t.arch.phase ≠ State.reset.arch.phase :=
  ⟨_, exec_performed (by decide) (by decide +kernel), by decide +kernel⟩

theorem witness_DemsDemodulatesOneSample_RxsIsDemsThenRxb :
    State.reset.arch.status.cfgErr = false ∧ (numOps State.reset.cfg.num).isFinite one = true ∧
      demodFinite State.reset.cfg State.reset.arch one = true := by decide +kernel

/-- A tracker and energies for each of the five rows, the thresholds met exactly where they are strict. -/
theorem witness_CarrierFollowsTheTable :
    let n := numOps tv1.num
    let mag := fun (ct : CarrierTracker NUM) (em es : NUM) =>
      n.abs (n.add (n.mul tv1.lpfA0 (n.sub em es)) (n.mul tv1.lpfB1 ct.f))
    let t0 : CarrierTracker NUM := ⟨zero, .idle, 0⟩
    let t1 : CarrierTracker NUM := ⟨one, .carrierDetected, 1⟩
    let t2 : CarrierTracker NUM := ⟨one, .carrierDetected, 2⟩
    n.lt tv1.detectT (mag t0 one zero) = true ∧ n.lt tv1.detectT (mag t0 half zero) = false ∧
    n.lt (mag t1 eighth zero) tv1.dropT = false ∧
    (n.lt (mag t1 sixteenth zero) tv1.dropT = true ∧ t1.run + 1 < tv1.dropRun) ∧
    (n.lt (mag t2 sixteenth zero) tv1.dropT = true ∧ tv1.dropRun ≤ t2.run + 1) := by decide +kernel

theorem witness_ShortDipKeepsTheCarrier :
    let s := at_ { a0 with ct := ⟨one, .carrierDetected, 0⟩ }
    s.arch.status.cfgErr = false ∧ s.arch.ct.state = .carrierDetected ∧ s.arch.ct.run = 0 ∧
      [zero, zero].length < s.cfg.dropRun ∧ (runOps ([zero, zero].map .dems) s).isSome = true := by
  decide +kernel

/-- TV3's mark tone: `g^3 = h` for `g = (1 + j)/2`, `h = (-1 + j)/4`. -/
theorem witness_ExactCorrelatorIsASlidingWindow : 1 ≤ 3 ∧
    cpow ((1 / 2 : Rat), (1 / 2 : Rat)) 3 = (-1 / 4, 1 / 4) := by
  simp only [cpow, cmul]
  norm_num

/-- An input that qualifies an edge and one that does not. -/
theorem witness_IdleQualifiesAStartEdge :
    let s := at_ { a0 with urx := { a0.urx with win := [true, false] } }
    s.arch.status.cfgErr = false ∧ s.arch.urx.state = .idle ∧
      startQualified s.cfg false (winPush s.cfg.win false s.arch.urx.win) = true ∧
      startQualified s.cfg true (winPush s.cfg.win true s.arch.urx.win) = false := by decide +kernel

theorem witness_receiver_states :
    (at_ { a0 with urx := ⟨.midBit, [false, false], 0, 0, 0⟩ }).arch.urx.state = .midBit ∧
    (at_ { a0 with urx := ⟨.receiving, [false, false], 31, 7, 0x25⟩ }).arch.urx.state = .receiving ∧
    (stopping.arch.status.cfgErr = false ∧ stopping.arch.urx.state = .stopBit ∧
      stopping.arch.urx.cnt + 1 = 9 * stopping.cfg.l) ∧
    (stopBitEntered.arch.urx.state = .stopBit ∧
      stopBitEntered.arch.urx.cnt + 1 ≠ 9 * stopBitEntered.cfg.l) := by decide +kernel

theorem witness_RdyMattersOnlyOnDelivery :
    ¬(State.reset.arch.urx.state = .stopBit ∧ State.reset.arch.urx.cnt + 1 = 9 * State.reset.cfg.l) := by
  decide +kernel

theorem witness_IdleLineNeverDelivers :
    State.reset.arch.status.cfgErr = false ∧ State.reset.arch.urx.state = .idle := by decide +kernel

theorem witness_QualifiedEdgeMakesOneFrame :
    let s := at_ { a0 with urx := ⟨.midBit, [false, false], 0, 0, 0⟩ }
    s.arch.status.cfgErr = false ∧ cfgValid s.cfg = true ∧ s.arch.urx.state = .midBit ∧
      s.arch.urx.cnt = 0 ∧ s.arch.urx.bitIndex = 0 ∧ s.arch.urx.acc = 0 ∧
      (List.replicate 37 true).length = s.cfg.settle + 9 * s.cfg.l := by decide +kernel

/-- `WIN + SETTLE` just equal to `L`, and a window of ones. -/
theorem witness_LoopbackDeliversTheBytesSent :
    let s : State := State.construct { tv1 with settle := 2 }
    let u : State := { s with arch := { s.arch with urx := { s.arch.urx with win := [true, true] } } }
    u.arch.status.cfgErr = false ∧ cfgValid u.cfg = true ∧ u.cfg.win + u.cfg.settle = u.cfg.l ∧
      u.arch.urx.state = .idle ∧ (∀ b ∈ u.arch.urx.win, b = true) ∧
      u.arch.urx.win.length ≤ u.cfg.win := by decide +kernel

/-- RXS changes every element of the receive path it may, TXS those of the transmit path, so each clause
has its case. -/
theorem witness_OnlyTheListedOperationsWrite :
    (∃ t, exec (.dems one) (at_ { a0 with ct := ⟨one, .idle, 0⟩ }) = .next t ∧ t.arch.dl ≠ a0.dl ∧
      t.arch.space ≠ a0.space ∧ t.arch.mark ≠ a0.mark ∧ t.arch.ct ≠ ⟨one, .idle, 0⟩) ∧
    (∃ t, exec .txs (at_ { a0 with txq := [false] }) = .next t ∧ t.arch.phase ≠ a0.phase ∧
      t.arch.txq ≠ [false]) ∧
    (∃ t, exec (.rxb false true) stopping = .next t ∧ t.arch.urx ≠ stopping.arch.urx ∧
      t.arch.status ≠ stopping.arch.status) :=
  ⟨⟨_, exec_performed (by decide) (by decide +kernel), by decide +kernel⟩,
    ⟨_, exec_performed (by decide) (by decide +kernel), by decide +kernel⟩,
    ⟨_, exec_performed (by decide) (by decide +kernel), by decide +kernel⟩⟩

theorem witness_StepKeepsTheConfiguration : ∃ t, step (State.reset.present 0x15) = .next t := ⟨_, rfl⟩

theorem witness_StickyFlagsStayUntilRst : ∃ t r, exec (.rxb false false) stopping = .next t ∧
    t.resp = some r ∧ Instr.rxb false false ≠ .rst ∧ r.ferr = true ∧ r.fail = true :=
  ⟨_, _, rfl, rfl, by decide, by decide +kernel⟩

theorem witness_ReceiveAndTransmitCommute : ∃ t u,
    onReceivePath (.rxb true true) = true ∧ onTransmitPath .txb = true ∧
      exec (.rxb true true) State.reset = .next t ∧ exec .txb t = .next u := ⟨_, _, rfl, rfl, rfl, rfl⟩

/-- A core at reset with STAT presented meets the invariant and steps. -/
theorem witness_StepKeepsTheInvariant_RangesHoldAfterEveryOperation :
    Inv (State.reset.present 0x18) ∧ cfgValid (State.reset.present 0x18).cfg = true ∧
      ∃ t, step (State.reset.present 0x18) = .next t :=
  ⟨⟨rfl, fun h => initial_archInv h, by intro r h; cases h⟩, by decide, _, rfl⟩

/-- The widest value of `val`. -/
theorem witness_ResponseWordLayout : ({ ok := true, val := 2 ^ 32 - 1 } : Response).val < 2 ^ 32 := by decide

theorem witness_RationalCoreIsExact_AlwaysAnswers : tv1Exact.num = .rational ∧
    (State.construct tv1Exact).cfg.num = .rational := by decide +kernel

/-- `g^4 = 1/16` for both tones of TV1. -/
theorem witness_RationalCoreHoldsTheWindow : tv1Exact.num = .rational ∧ cfgValid tv1Exact = true ∧
    ∀ k ∈ [tv1Exact.space, tv1Exact.mark],
      cpow (toRat k.a, toRat k.b) tv1Exact.l = (toRat k.c, toRat k.d) := by decide +kernel

end Sys2Proof.Tests
end

