-- ==== Sys2Proof/Proofs/RationalExact.lean ====
section
/-! PROOFS. With NUM the rationals, DEMOD.STEP and the phase advance compute in the exact field (00_scope.md R10;
42_demodulator.md R121; 43_modulator.md R132). -/

namespace Sys2Proof.Machine

theorem numOps_of_rational {fmt : NumFormat} (h : fmt = .rational) : numOps fmt = rationalOps := by
  subst h
  rfl

/-- DEMOD.STEP on encodings is DEMOD.STEP on the rationals they encode: both correlators get the same delayed
sample, so their energies agree, and with them CT.DEC's tracker and bit. -/
theorem demodulate_toRat (k : DemodCoef NUM) (r : DemodRegs NUM) (x : NUM) :
    let o := demodulate rationalOps k r x
    let e := demodulate exactOps (k.map toRat) (r.map toRat) (toRat x)
    o.regs.map toRat = e.regs ∧ o.bit = e.bit := by
  have hdelay : toRat (delayed rationalOps.zero k.l r.dl) = delayed exactOps.zero k.l (r.dl.map toRat) := by
    rw [← toRat_zero]
    exact delayed_map toRat rationalOps.zero k.l r.dl
  obtain ⟨hmi, hmq, hme⟩ :=
    corrUpd_toRat k.mark r.mark.i r.mark.q x (delayed rationalOps.zero k.l r.dl)
  obtain ⟨hsi, hsq, hse⟩ :=
    corrUpd_toRat k.space r.space.i r.space.q x (delayed rationalOps.zero k.l r.dl)
  obtain ⟨hct, hbit⟩ := carrierDecide_toRat k.tracker r.ct
    (corrUpd rationalOps k.mark r.mark.i r.mark.q x (delayed rationalOps.zero k.l r.dl)).energy
    (corrUpd rationalOps k.space r.space.i r.space.q x (delayed rationalOps.zero k.l r.dl)).energy
  rw [hdelay] at hmi hmq hme hsi hsq hse
  rw [hme, hse] at hct hbit
  simp only [demodulate, DemodRegs.map, DemodCoef.map, Corr.map, shiftIn_map]
  exact ⟨by rw [hmi, hmq, hsi, hsq, hct], hbit⟩

/-- The phase advance on encodings is the phase advance on the rationals they encode: the comparison with TWO_PI
takes the same branch. -/
theorem phaseAdvance_toRat (twoPi step phase : NUM) :
    toRat (phaseAdvance rationalOps twoPi step phase).1 =
      (phaseAdvance exactOps (toRat twoPi) (toRat step) (toRat phase)).1 := by
  simp only [phaseAdvance, rationalOps_le, toRat_add]
  split
  · simp only [toRat_sub, toRat_add]
  · exact toRat_add phase step

/-- Settles O48: the configured operations are those on encodings, which both datapaths carry to the exact field. -/
theorem rationalCoreIsExact : Obligations.RationalCoreIsExact := by
  unfold Obligations.RationalCoreIsExact
  refine ⟨fun c a x hnum => ?_, fun c b p hnum => ?_⟩
  · rw [demodOut, numOps_of_rational hnum]
    exact demodulate_toRat (demodCoef c) a.demodRegs x
  · rw [phaseStep, numOps_of_rational hnum]
    exact phaseAdvance_toRat c.twoPi (dphi c b) p

end Sys2Proof.Machine
end

