-- ==== Sys2Proof/Proofs/StateElements.lean ====
section
/-! PROOFS. The state table: which operation writes which element, what no operation writes, and the reset values
(10_state.md R20, R40, R44; 70_reset_and_hazards.md R200, R201). -/

namespace Sys2Proof.Machine

/-! ### What a performed operation writes, element by element -/

/-- DL, the correlators and CT are written by DEMS, RXS and RST (10_state.md R20). -/
theorem performed_demodRegs (i : Instr) (s : State) :
    (performed i s).1.demodRegs = s.arch.demodRegs ∨
      (∃ x, i = .dems x) ∨ (∃ x rdy, i = .rxs x rdy) ∨ i = .rst := by
  cases i with
  | dems x => exact .inr (.inl ⟨x, rfl⟩)
  | rxs x rdy => exact .inr (.inr (.inl ⟨x, rdy, rfl⟩))
  | rst => exact .inr (.inr (.inr rfl))
  | nop | rxb | txq | txb | modb | txs | stat => exact .inl rfl

/-- MOD.phase is written by MODB, TXS and RST (10_state.md R20). -/
theorem performed_phase (i : Instr) (s : State) :
    (performed i s).1.phase = s.arch.phase ∨ (∃ b, i = .modb b) ∨ i = .txs ∨ i = .rst := by
  cases i with
  | modb b => exact .inr (.inl ⟨b, rfl⟩)
  | txs => exact .inr (.inr (.inl rfl))
  | rst => exact .inr (.inr (.inr rfl))
  | nop | rxs | dems | rxb | txq | txb | stat => exact .inl rfl

/-- URX and the sticky flags are written by RXB, RXS and RST (10_state.md R20). -/
theorem performed_receiver (i : Instr) (s : State) :
    ((performed i s).1.urx = s.arch.urx ∧ (performed i s).1.status = s.arch.status) ∨
      (∃ b rdy, i = .rxb b rdy) ∨ (∃ x rdy, i = .rxs x rdy) ∨ i = .rst := by
  cases i with
  | rxb b rdy => exact .inr (.inl ⟨b, rdy, rfl⟩)
  | rxs x rdy => exact .inr (.inr (.inl ⟨x, rdy, rfl⟩))
  | rst => exact .inr (.inr (.inr rfl))
  | nop | dems | txq | txb | modb | txs | stat => exact .inl ⟨rfl, rfl⟩

/-- TXQ is written by TXQ, which appends a frame, by TXB and TXS, which pop, and by RST, which empties it
(10_state.md R20; 45_uart_transmitter.md R160, R162). -/
theorem performed_txq (i : Instr) (s : State) :
    (performed i s).1.txq = s.arch.txq ∨
      (∃ y, i = .txq y ∧ (performed i s).1.txq = s.arch.txq ++ expand s.cfg.l (frameBits y)) ∨
      ((i = .txb ∨ i = .txs) ∧ (performed i s).1.txq = (popOrIdle s.arch.txq).2) ∨
      (i = .rst ∧ (performed i s).1.txq = []) := by
  cases i with
  | txq y => exact .inr (.inl ⟨y, rfl, rfl⟩)
  | txb => exact .inr (.inr (.inl ⟨.inl rfl, rfl⟩))
  | txs => exact .inr (.inr (.inl ⟨.inr rfl, rfl⟩))
  | rst => exact .inr (.inr (.inr ⟨rfl, rfl⟩))
  | nop | rxs | dems | rxb | modb | stat => exact .inl rfl

/-! ### What an operation and a step leave unchanged -/

/-- The core's state after an operation is the state before, or what the performed operation commits. -/
theorem exec_arch {i : Instr} {s t : State} (h : exec i s = .next t) :
    t.arch = s.arch ∨ t.arch = (performed i s).1 := by
  obtain ⟨_, rfl⟩ | ⟨_, _, rfl⟩ := exec_next h
  · exact .inl rfl
  · exact .inr rfl

/-- No operation writes CFG, CFGERR or the port (10_state.md R40; 70_reset_and_hazards.md R201). -/
theorem exec_keeps {i : Instr} {s t : State} (h : exec i s = .next t) :
    t.cfg = s.cfg ∧ t.arch.status.cfgErr = s.arch.status.cfgErr ∧ t.port = s.port := by
  obtain ⟨_, rfl⟩ | ⟨_, _, rfl⟩ := exec_next h
  · exact ⟨rfl, rfl, rfl⟩
  · exact ⟨rfl, performed_cfgErr i s, rfl⟩

/-- An element `f` of state that an operation changes is one that the performed operation writes. -/
theorem writer_of_changed {α : Type} (f : Arch → α) {i : Instr} {s t : State} {writers : Prop}
    (h : exec i s = .next t) (hw : f (performed i s).1 = f s.arch ∨ writers) (hne : f t.arch ≠ f s.arch) :
    writers := by
  obtain ha | ha := exec_arch h
  · exact absurd (congrArg f ha) hne
  · exact hw.resolve_left fun he => hne ((congrArg f ha).trans he)

/-- Settles O38: an operation changes only what it writes when performed, and the writers of each element are
those of the table. -/
theorem onlyTheListedOperationsWrite : Obligations.OnlyTheListedOperationsWrite := by
  unfold Obligations.OnlyTheListedOperationsWrite
  intro i s t h demod receive
  have hdemod := performed_demodRegs i s
  have hreceive := performed_receiver i s
  have hqueue : (performed i s).1.txq = s.arch.txq ∨ (∃ y, i = .txq y) ∨ i = .txb ∨ i = .txs ∨ i = .rst := by
    obtain hq | ⟨y, hi, _⟩ | ⟨hi, _⟩ | ⟨hi, _⟩ := performed_txq i s
    · exact .inl hq
    · exact .inr (.inl ⟨y, hi⟩)
    · exact .inr (.inr (hi.imp_right .inl))
    · exact .inr (.inr (.inr (.inr hi)))
  obtain ⟨hcfg, herr, hport⟩ := exec_keeps h
  exact ⟨writer_of_changed Arch.dl h (hdemod.imp_left (congrArg DemodRegs.dl)),
    writer_of_changed Arch.space h (hdemod.imp_left (congrArg DemodRegs.space)),
    writer_of_changed Arch.mark h (hdemod.imp_left (congrArg DemodRegs.mark)),
    writer_of_changed Arch.ct h (hdemod.imp_left (congrArg DemodRegs.ct)),
    writer_of_changed Arch.phase h (performed_phase i s),
    writer_of_changed Arch.urx h (hreceive.imp_left And.left),
    writer_of_changed Arch.txq h hqueue,
    writer_of_changed Arch.status h (hreceive.imp_left And.right),
    herr, hcfg, hport⟩

/-- Settles O39: an idle step changes nothing, an operation keeps CFG, CFGERR and the words behind its own, and
so does the refusal of a reserved code. -/
theorem stepKeepsTheConfiguration : Obligations.StepKeepsTheConfiguration := by
  unfold Obligations.StepKeepsTheConfiguration
  intro s t h
  obtain ⟨hp, rfl⟩ | ⟨w, rest, i, hp, _, he⟩ | ⟨w, rest, op, hp, _, rfl⟩ := step_next h
  · exact ⟨rfl, rfl, by rw [hp, List.tail_nil]⟩
  · rw [hp]
    exact exec_keeps he
  · rw [hp]
    exact ⟨rfl, rfl, rfl⟩

/-! ### Reset -/

/-- RST of a constructed core is performed: it puts every element but CFGERR at its reset value
(46_system_ops.md R171). -/
theorem exec_rst_of_constructed {s : State} (h : s.arch.status.cfgErr = false) :
    exec .rst s = .next (s.commit (s.arch.resetKeepingCfgErr s.cfg) { ok := true }) :=
  exec_performed (by simp [refusalOf, h]) rfl

/-- Settles O42: construction and RST both write `Arch.initial`, and RST keeps a CFGERR that is 0. -/
theorem resetLeavesTheResetValues : Obligations.ResetLeavesTheResetValues := by
  unfold Obligations.ResetLeavesTheResetValues
  refine ⟨fun c => ⟨rfl, rfl, rfl, rfl, rfl, rfl, rfl, rfl, rfl⟩, fun s h => ?_⟩
  have hstatus : (s.arch.resetKeepingCfgErr s.cfg).status = ⟨false, false, false⟩ := by
    rw [Arch.resetKeepingCfgErr_status, h]
  exact ⟨_, exec_rst_of_constructed h, rfl, rfl, rfl, rfl, rfl, rfl, rfl, hstatus, rfl⟩

end Sys2Proof.Machine
end

