-- ==== Sys2Proof/Proofs/StepRanges.lean ====
section
/-! PROOFS. Every step keeps a constructed core in order, and with it the ranges of the counters, the window and
the queue (10_state.md R33, R41 to R43). -/

namespace Sys2Proof.Machine

/-! ### Every step keeps a constructed core in order -/

/-- URX.STEP keeps the core's invariant. -/
theorem receive_archInv {c : Cfg} {a : Arch} (b rdy : Bit) (hv : cfgValid c = true) (h : ArchInv c a) :
    ArchInv c (a.receive c b rdy).1 :=
  ⟨h.dlLength, h.nums, h.carrier, urxStep_receiverInv b rdy hv h.receiver, h.queue⟩

/-- A queue within its bound keeps the core's invariant. -/
theorem setQueue_archInv {c : Cfg} {a : Arch} {q : List Bit} (h : ArchInv c a) (hq : QueueInv c q) :
    ArchInv c (a.setQueue q) :=
  ⟨h.dlLength, h.nums, h.carrier, h.receiver, hq⟩

/-- A finite phase keeps the core's invariant. -/
theorem setPhase_archInv {c : Cfg} {a : Arch} {p : NUM} (h : ArchInv c a) (hp : FiniteNum c p) :
    ArchInv c (a.setPhase p) := by
  obtain ⟨hdl, hsi, hsq, hmi, hmq, hf, _⟩ := h.nums
  exact ⟨h.dlLength, ⟨hdl, hsi, hsq, hmi, hmq, hf, hp⟩, h.carrier, h.receiver, h.queue⟩

/-- A queue that lost its front entry is within its bound. -/
theorem popOrIdle_queueInv {c : Cfg} {q : List Bit} (h : QueueInv c q) : QueueInv c (popOrIdle q).2 := by
  intro cap hcap
  have hle := h cap hcap
  rw [popOrIdle_length]
  omega

/-- A queue that takes a frame is within its bound with it (45_uart_transmitter.md R164). -/
theorem frame_queueInv {c : Cfg} {q : List Bit} (y : Byte) (h : queueTakes c.txqCap q (10 * c.l) = true) :
    QueueInv c (q ++ expand c.l (frameBits y)) := by
  intro cap hcap
  rw [List.length_append, expand_length, frameBits_length]
  exact (queueTakes_iff _ _ _).mp h cap hcap

/-- RST puts a core with a valid CFG in order (10_state.md R44). -/
theorem resetKeepingCfgErr_archInv {c : Cfg} (a : Arch) (hv : cfgValid c = true) :
    ArchInv c (a.resetKeepingCfgErr c) := by
  obtain ⟨hlen, hnums, hct, hurx, htxq⟩ := initial_archInv hv
  exact ⟨hlen, hnums, hct, hurx, htxq⟩

/-- The queue of a TXQ that is not refused has room for a frame (45_uart_transmitter.md R164). -/
theorem queueTakes_of_passes {y : Byte} {s : State} (h : refusalOf (.txq y) s = .none) :
    queueTakes s.cfg.txqCap s.arch.txq (10 * s.cfg.l) = true := by
  have hc := cfgErr_of_passes h (by simp) (by simp)
  simpa [refusalOf, hc] using h

/-- A performed operation that has a next state keeps the core's invariant. -/
theorem performed_archInv {i : Instr} {s : State} (hv : cfgValid s.cfg = true) (h : ArchInv s.cfg s.arch)
    (hr : refusalOf i s = .none) (ho : noOverflow i s = true) : ArchInv s.cfg (performed i s).1 := by
  cases i with
  | nop | stat => exact h
  | dems x => exact demodArch_archInv hv h ho
  | rxs x rdy => exact receive_archInv _ rdy hv (demodArch_archInv hv h ho)
  | rxb b rdy => exact receive_archInv b rdy hv h
  | txq y => exact setQueue_archInv h (frame_queueInv y (queueTakes_of_passes hr))
  | txb => exact setQueue_archInv h (popOrIdle_queueInv h.queue)
  | modb b => exact setPhase_archInv h (phaseStep_finite ho)
  | txs => exact setPhase_archInv (setQueue_archInv h (popOrIdle_queueInv h.queue)) (phaseStep_finite ho)
  | rst => exact resetKeepingCfgErr_archInv s.arch hv

/-- An operation with a next state keeps the core's invariant: performed or refused. -/
theorem exec_archInv {i : Instr} {s t : State} (hv : cfgValid s.cfg = true) (h : ArchInv s.cfg s.arch)
    (he : exec i s = .next t) : ArchInv s.cfg t.arch := by
  obtain ⟨_, rfl⟩ | ⟨hr, ho, rfl⟩ := exec_next he
  · exact h
  · exact performed_archInv hv h hr ho

/-- The core's state after a step is the state before, or one operation's. -/
theorem step_arch {s t : State} (h : step s = .next t) :
    t.arch = s.arch ∨ ∃ rest i, exec i (s.withPort rest) = .next t := by
  obtain ⟨_, rfl⟩ | ⟨_, rest, i, _, _, he⟩ | ⟨_, _, _, _, _, rfl⟩ := step_next h
  · exact .inl rfl
  · exact .inr ⟨rest, i, he⟩
  · exact .inl rfl

/-- Every step of a core with a valid CFG keeps the core's invariant. -/
theorem step_archInv {s t : State} (hv : cfgValid s.cfg = true) (h : ArchInv s.cfg s.arch)
    (hs : step s = .next t) : ArchInv s.cfg t.arch := by
  obtain ha | ⟨rest, i, he⟩ := step_arch hs
  · rwa [ha]
  · exact exec_archInv (s := s.withPort rest) hv h he

/-! ### The ranges -/

/-- The receiver's schedule keeps its counters in their ranges (10_state.md R33, R42). -/
theorem ReceiverInv.ranges {c : Cfg} {u : UartRx} (h : ReceiverInv c u) :
    u.bitIndex ≤ 8 ∧ (u.state = .midBit ∨ u.state = .receiving → u.bitIndex ≤ 7) ∧
      u.cnt ≤ max (c.settle - 1) (9 * c.l) := by
  obtain ⟨_, hstate⟩ := h
  cases hs : u.state with
  | idle =>
    simp only [hs] at hstate
    exact ⟨hstate.1, by simp, hstate.2⟩
  | midBit =>
    simp only [hs] at hstate
    omega
  | receiving =>
    simp only [hs] at hstate
    obtain ⟨hidx, _, _, hcnt⟩ := hstate
    have hsymbols : (u.bitIndex + 1) * c.l ≤ 9 * c.l := Nat.mul_le_mul_right _ (by omega)
    omega
  | stopBit =>
    simp only [hs] at hstate
    exact ⟨by omega, by simp, by omega⟩

/-- One operation leaves the queue as long as it was, one frame longer, one entry shorter, or empty
(45_uart_transmitter.md R160 to R163; 46_system_ops.md R171). -/
theorem performed_txq_length (i : Instr) (s : State) :
    (performed i s).1.txq.length = s.arch.txq.length ∨
      (performed i s).1.txq.length = s.arch.txq.length + 10 * s.cfg.l ∨
      (performed i s).1.txq.length + 1 = s.arch.txq.length ∨ (performed i s).1.txq = [] := by
  obtain hq | ⟨y, _, hq⟩ | ⟨_, hq⟩ | ⟨_, hq⟩ := performed_txq i s
  · exact .inl (congrArg List.length hq)
  · rw [hq, List.length_append, expand_length, frameBits_length]
    exact .inr (.inl rfl)
  · rw [hq]
    cases s.arch.txq with
    | nil => exact .inl rfl
    | cons b rest => exact .inr (.inr (.inl rfl))
  · exact .inr (.inr (.inr hq))

/-- A step changes the queue's length as one operation does. -/
theorem step_txq_length {s t : State} (h : step s = .next t) :
    t.arch.txq.length = s.arch.txq.length ∨ t.arch.txq.length = s.arch.txq.length + 10 * s.cfg.l ∨
      t.arch.txq.length + 1 = s.arch.txq.length ∨ t.arch.txq = [] := by
  obtain ha | ⟨rest, i, he⟩ := step_arch h
  · exact .inl (by rw [ha])
  · obtain ha | ha := exec_arch he
    · exact .inl (by rw [ha, State.withPort_arch])
    · rw [ha]
      exact performed_txq_length i (s.withPort rest)

/-- Settles O46: the ranges of the counters, the window and the queue are part of the invariant, which every
step keeps; the queue's length follows from the operation performed. -/
theorem rangesHoldAfterEveryOperation : Obligations.RangesHoldAfterEveryOperation := by
  unfold Obligations.RangesHoldAfterEveryOperation
  intro s t hinv hv h
  obtain ⟨_, _, ⟨hrun, hidle⟩, hurx, hcap⟩ := step_archInv hv (hinv.arch hv) h
  obtain ⟨hidx, hidx7, hcnt⟩ := hurx.ranges
  exact ⟨Nat.le_sub_one_of_lt hrun, hidle, hurx.1, hidx, hidx7, hcnt, hcap, step_txq_length h⟩

end Sys2Proof.Machine
end

