-- ==== Sys2Proof/Proofs/PathsCommute.lean ====
section
/-! PROOFS. The receive path and the transmit path do not interfere (20_memory.md R71): an operation acts by the
elements of its own path alone, and writes none of the other's. -/

namespace Sys2Proof.Machine

/-! ### The elements of the two paths -/

/-- What the receive-path operations read and write of the core's state (10_state.md R20). -/
def Arch.receivePath (a : Arch) : DemodRegs NUM × UartRx × Status := (a.demodRegs, a.urx, a.status)

/-- What the transmit-path operations read of the core's state (10_state.md R20). CFGERR, the one flag they
read, is the only element that the two paths share. -/
def Arch.transmitPath (a : Arch) : Bit × List Bit × NUM := (a.status.cfgErr, a.txq, a.phase)

/-- Every element of the core's state is on one of the paths. -/
theorem Arch.eq_of_paths {a a' : Arch} (hrx : a.receivePath = a'.receivePath)
    (htx : a.transmitPath = a'.transmitPath) : a = a' := by
  cases a
  cases a'
  cases hrx
  cases htx
  rfl

/-! ### An operation acts by its own path alone -/

/-- `i` does in `s'` what it does in `s`: the same checks, the same response, and the same `view` of the core's
state after. -/
structure ActsAlike {α : Type} (view : Arch → α) (i : Instr) (s s' : State) : Prop where
  refusal  : refusalOf i s' = refusalOf i s
  overflow : noOverflow i s' = noOverflow i s
  response : (performed i s').2 = (performed i s).2
  arch     : view (performed i s').1 = view (performed i s).1

/-- An operation that acts alike in two states with one view has a next state in both or in neither, with the same
response and again one view. -/
theorem exec_of_actsAlike {α : Type} {view : Arch → α} {i : Instr} {s s' t : State} (h : ActsAlike view i s s')
    (hview : view s'.arch = view s.arch) (he : exec i s = .next t) :
    ∃ t', exec i s' = .next t' ∧ t'.resp = t.resp ∧ view t'.arch = view t.arch := by
  obtain ⟨hr, rfl⟩ | ⟨hr, ho, rfl⟩ := exec_next he
  · have hr' : refusalOf i s' ≠ .none := by rwa [h.refusal]
    refine ⟨_, exec_refused hr', ?_, hview⟩
    rw [State.refuse_resp, State.refuse_resp, h.refusal]
  · refine ⟨_, exec_performed (h.refusal.trans hr) (h.overflow.trans ho), ?_, h.arch⟩
    rw [State.commit_resp, State.commit_resp, h.response]

/-- A receive-path operation acts by CFG and the receive path. -/
theorem receive_actsAlike {i : Instr} {s s' : State} (hi : onReceivePath i = true) (hcfg : s'.cfg = s.cfg)
    (h : s'.arch.receivePath = s.arch.receivePath) : ActsAlike Arch.receivePath i s s' := by
  obtain ⟨c, ⟨dl, space, mark, ct, phase, urx, txq, status⟩, port, resp⟩ := s
  obtain ⟨c', ⟨dl', space', mark', ct', phase', urx', txq', status'⟩, port', resp'⟩ := s'
  cases hcfg
  cases h
  cases i with
  | rxs | dems | rxb => exact ⟨rfl, rfl, rfl, rfl⟩
  | nop | txq | txb | modb | txs | stat | rst => cases hi

/-- A transmit-path operation acts by CFG and the transmit path. -/
theorem transmit_actsAlike {j : Instr} {s s' : State} (hj : onTransmitPath j = true) (hcfg : s'.cfg = s.cfg)
    (h : s'.arch.transmitPath = s.arch.transmitPath) : ActsAlike Arch.transmitPath j s s' := by
  obtain ⟨c, ⟨dl, space, mark, ct, phase, urx, txq, ⟨ferr, rxovr, cfgErr⟩⟩, port, resp⟩ := s
  obtain ⟨c', ⟨dl', space', mark', ct', phase', urx', txq', ⟨ferr', rxovr', cfgErr'⟩⟩, port', resp'⟩ := s'
  cases hcfg
  cases h
  cases j with
  | txq | txb | modb | txs => exact ⟨rfl, rfl, rfl, rfl⟩
  | nop | rxs | dems | rxb | stat | rst => cases hj

/-! ### An operation writes none of the other path -/

/-- A receive-path operation leaves the transmit path as it was. -/
theorem exec_receive_transmitPath {i : Instr} {s t : State} (hi : onReceivePath i = true)
    (he : exec i s = .next t) : t.arch.transmitPath = s.arch.transmitPath := by
  obtain ⟨_, hcfgErr, _⟩ := exec_keeps he
  obtain ⟨hqueue, hphase⟩ : t.arch.txq = s.arch.txq ∧ t.arch.phase = s.arch.phase := by
    obtain ha | ha := exec_arch he
    · exact ⟨by rw [ha], by rw [ha]⟩
    · rw [ha]
      cases i with
      | rxs | dems | rxb => exact ⟨rfl, rfl⟩
      | nop | txq | txb | modb | txs | stat | rst => cases hi
  rw [Arch.transmitPath, hcfgErr, hqueue, hphase, Arch.transmitPath]

/-- A transmit-path operation leaves the receive path as it was. -/
theorem exec_transmit_receivePath {j : Instr} {s t : State} (hj : onTransmitPath j = true)
    (he : exec j s = .next t) : t.arch.receivePath = s.arch.receivePath := by
  obtain ha | ha := exec_arch he
  · rw [ha]
  · rw [ha]
    cases j with
    | txq | txb | modb | txs => rfl
    | nop | rxs | dems | rxb | stat | rst => cases hj

/-- Settles O41: the transmit-path operation finds its path in the first state as the receive-path operation leaves
it, and the receive-path operation finds its own as before; so each answers the same, and the two ends agree on
both paths. -/
theorem receiveAndTransmitCommute : Obligations.ReceiveAndTransmitCommute := by
  unfold Obligations.ReceiveAndTransmitCommute
  intro i j s t u hi hj hst htu
  have hcfg : s.cfg = t.cfg := (exec_keeps hst).1.symm
  have htx : s.arch.transmitPath = t.arch.transmitPath := (exec_receive_transmitPath hi hst).symm
  obtain ⟨t', hst', hresp, htx'⟩ := exec_of_actsAlike (transmit_actsAlike hj hcfg htx) htx htu
  have hcfg' : t'.cfg = s.cfg := (exec_keeps hst').1
  have hrx : t'.arch.receivePath = s.arch.receivePath := exec_transmit_receivePath hj hst'
  obtain ⟨u', htu', hresp', hrx'⟩ := exec_of_actsAlike (receive_actsAlike hi hcfg' hrx) hrx hst
  refine ⟨t', u', hst', htu', Arch.eq_of_paths ?_ ?_, hresp, hresp'⟩
  · exact hrx'.trans (exec_transmit_receivePath hj htu).symm
  · exact (exec_receive_transmitPath hi htu').trans htx'

end Sys2Proof.Machine
end

