-- ==== Sys2Proof/Proofs/OperationWord.lean ====
section
/-! PROOFS. What the decoder reads from an operation word, for every width of NUM, and what the step that performs
the word does (30_encoding.md R80 to R87). -/

namespace Sys2Proof.Machine

/-! ### The table of operation codes -/

/-- The table of R85 for every number that is an operation word, whatever the width of NUM. -/
theorem decode_eq {numW : Option Nat} {w : Nat} (hfit : fitsIn (wordWidth numW) w = true) :
    decode numW w =
      if opField w = 0x0 then .ok .nop
      else if opField w = 0x1 then .ok (.rxs (sampleOperand numW w) (rdyField w))
      else if opField w = 0x2 then .ok (.dems (sampleOperand numW w))
      else if opField w = 0x3 then .ok (.rxb (bitOperand w) (rdyField w))
      else if opField w = 0x4 then .ok (.txq (byteOperand w))
      else if opField w = 0x5 then .ok .txb
      else if opField w = 0x6 then .ok (.modb (bitOperand w))
      else if opField w = 0x7 then .ok .txs
      else if opField w = 0x8 then .ok .stat
      else if opField w = 0xF then .ok .rst
      else .error (.reserved (opField w)) := by
  have hlt : opField w < 16 := Nat.mod_lt w (by decide)
  rw [decode, hfit]
  generalize opField w = op at hlt ⊢
  interval_cases op <;> rfl

/-- A word with a code of the table decodes to an operation. -/
theorem decode_of_tableCode {numW : Option Nat} {w : Nat} (hfit : fitsIn (wordWidth numW) w = true)
    (hcode : opField w ≤ 8 ∨ opField w = 15) : ∃ i, decode numW w = .ok i := by
  rw [decode_eq hfit]
  generalize opField w = op at hcode ⊢
  obtain hle | rfl := hcode
  · interval_cases op <;> exact ⟨_, rfl⟩
  · exact ⟨_, rfl⟩

/-- A word with a code in 0x9 to 0xE is reserved (R86). -/
theorem decode_of_reservedCode {numW : Option Nat} {w : Nat} (hfit : fitsIn (wordWidth numW) w = true)
    (hlo : 9 ≤ opField w) (hhi : opField w ≤ 14) : decode numW w = .error (.reserved (opField w)) := by
  rw [decode_eq hfit]
  repeat rw [if_neg (by omega)]

/-- Settles O3: the decoder's table at a bounded width; a Byte is the same whether `arg` is cut to 8 bits first or
not. -/
theorem operationCodesFollowTheTable : Obligations.OperationCodesFollowTheTable := by
  unfold Obligations.OperationCodesFollowTheTable
  intro numW w hw op rdy arg
  have hbyte : BitVec.ofNat 8 (arg % 256) = byteOperand w := BitVec.eq_of_toNat_eq (Nat.mod_mod arg 256)
  rw [hbyte]
  exact decode_eq ((fitsIn_some _ _).mpr hw)

/-! ### The step that performs a presented word -/

theorem step_present_of_ok {s : State} {w : Nat} {i : Instr} (h : decode (numWidth s.cfg.num) w = .ok i) :
    step (s.present w) = exec i s := by
  simp only [step, takeWord_present, h]

theorem step_present_of_error {s : State} {w : Nat} {e : DecodeError}
    (h : decode (numWidth s.cfg.num) w = .error e) : step (s.present w) = execUndecoded e s := by
  simp only [step, takeWord_present, h]

/-- Settles O5: the word decodes to a reserved code, which every state answers with ILLOP. -/
theorem reservedCodesAreRefused : Obligations.ReservedCodesAreRefused := by
  unfold Obligations.ReservedCodesAreRefused
  intro s w hfit hlo hhi
  exact step_present_of_error (decode_of_reservedCode hfit hlo hhi)

/-! ### The fields a format ignores -/

/-- `w` and `v` agree on the operation code and on what its format reads (R81, R82). -/
structure AgreeOnUsedFields (numW : Option Nat) (w v : Nat) : Prop where
  op     : opField w = opField v
  rdy    : opField w = 1 ∨ opField w = 3 → rdyField w = rdyField v
  sample : opField w = 1 ∨ opField w = 2 → sampleOperand numW w = sampleOperand numW v
  bit    : opField w = 3 ∨ opField w = 6 → bitOperand w = bitOperand v
  byte   : opField w = 4 → byteOperand w = byteOperand v

/-- The decoder does not look at a field the format ignores (R87). -/
theorem AgreeOnUsedFields.decode_eq_decode {numW : Option Nat} {w v : Nat} (h : AgreeOnUsedFields numW w v)
    (hw : fitsIn (wordWidth numW) w = true) (hv : fitsIn (wordWidth numW) v = true) :
    decode numW w = decode numW v := by
  rw [decode_eq hw, decode_eq hv, ← h.op]
  refine if_congr Iff.rfl rfl ?_
  refine ite_congr rfl (fun h1 => by rw [h.sample (.inl h1), h.rdy (.inl h1)]) fun _ => ?_
  refine ite_congr rfl (fun h2 => by rw [h.sample (.inr h2)]) fun _ => ?_
  refine ite_congr rfl (fun h3 => by rw [h.bit (.inl h3), h.rdy (.inr h3)]) fun _ => ?_
  refine ite_congr rfl (fun h4 => by rw [h.byte h4]) fun _ => ?_
  refine if_congr Iff.rfl rfl ?_
  exact ite_congr rfl (fun h6 => by rw [h.bit (.inr h6)]) fun _ => rfl

theorem bitOperand_congr {w v : Nat} (h : argField w % 2 = argField v % 2) : bitOperand w = bitOperand v := by
  rw [bitOperand, h, bitOperand]

theorem byteOperand_congr {w v : Nat} (h : argField w % 2 ^ 8 = argField v % 2 ^ 8) :
    byteOperand w = byteOperand v :=
  BitVec.eq_of_toNat_eq h

/-- Settles O4: both words decode to one operation, and a step performs what its word decodes to. -/
theorem ignoredFieldsHaveNoEffect : Obligations.IgnoredFieldsHaveNoEffect := by
  unfold Obligations.IgnoredFieldsHaveNoEffect
  intro s w v hw hv hop hcode hrdy hsample hbit hbyte
  have hagree : AgreeOnUsedFields (numWidth s.cfg.num) w v :=
    ⟨hop, hrdy, fun h => congrArg NUM.mk (hsample h), fun h => bitOperand_congr (hbit h),
      fun h => byteOperand_congr (hbyte h)⟩
  obtain ⟨i, hi⟩ := decode_of_tableCode hw hcode
  have hi' := (hagree.decode_eq_decode hw hv).symm.trans hi
  exact ⟨⟨i, hi, hi'⟩, (step_present_of_ok hi).trans (step_present_of_ok hi').symm⟩

end Sys2Proof.Machine
end

