-- ==== Sys2Proof/Proofs/ReadyBit.lean ====
section
/-! PROOFS. Where the `rdy` of an operation word is looked at: only when a frame is completed (30_encoding.md R82;
44_uart_receiver.md R144, R145). -/

namespace Sys2Proof.Machine

/-- Two operations with the same checks and the same effect have the same outcome. -/
theorem exec_congr {i j : Instr} {s : State} (hr : refusalOf i s = refusalOf j s)
    (ho : noOverflow i s = noOverflow j s) (hp : performed i s = performed j s) : exec i s = exec j s := by
  by_cases hpass : refusalOf i s = .none
  · cases hfinite : noOverflow i s with
    | true => rw [exec_performed hpass hfinite, exec_performed (hr ▸ hpass) (ho ▸ hfinite), hp]
    | false => rw [exec_overflow hpass hfinite, exec_overflow (hr ▸ hpass) (ho ▸ hfinite)]
  · rw [exec_refused hpass, exec_refused (hr ▸ hpass), hr]

/-- URX.STEP looks at `rdy` at the stop instant only. -/
theorem urxStep_rdy_irrelevant {c : Cfg} {u : UartRx} (b rdy rdy' : Bit)
    (h : ¬(u.state = .stopBit ∧ u.cnt + 1 = 9 * c.l)) : urxStep c u b rdy = urxStep c u b rdy' := by
  cases hs : u.state with
  | idle | midBit | receiving => simp only [urxStep, hs]
  | stopBit =>
    have hn : u.cnt + 1 ≠ 9 * c.l := fun hn => h ⟨hs, hn⟩
    simp only [urxStep, hs, urxStopBit, if_neg hn]

theorem receive_rdy_irrelevant {c : Cfg} {a : Arch} (b rdy rdy' : Bit)
    (h : ¬(a.urx.state = .stopBit ∧ a.urx.cnt + 1 = 9 * c.l)) : a.receive c b rdy = a.receive c b rdy' := by
  simp only [Arch.receive, urxStep_rdy_irrelevant b rdy rdy' h]

/-- Settles O34: no check looks at `rdy`, and the receiver step of either operation starts from the same URX, which
looks at `rdy` at the stop instant only. -/
theorem rdyMattersOnlyOnDelivery : Obligations.RdyMattersOnlyOnDelivery := by
  unfold Obligations.RdyMattersOnlyOnDelivery
  intro s b x h
  have hdemod (bit : Bit) : (demodArch s.cfg s.arch x).receive s.cfg bit true =
      (demodArch s.cfg s.arch x).receive s.cfg bit false := receive_rdy_irrelevant bit true false h
  refine ⟨exec_congr rfl rfl ?_, exec_congr rfl rfl ?_⟩
  · simp only [performed, receive_rdy_irrelevant b true false h]
  · simp only [performed, hdemod]

end Sys2Proof.Machine
end

