-- ==== Sys2Proof/Proofs/StatusAndResponse.lean ====
section
/-! PROOFS. The fields of the STATUS word and of the response word (30_encoding.md R83, R88, R89, R92). -/

namespace Sys2Proof.Machine

theorem Bit.toNum_eq_one_iff (b : Bit) : Bit.toNum b = 1 ↔ b = true := by cases b <;> decide

theorem CarrierState.code_lt (st : CarrierState) : st.code < 2 := by cases st <;> decide

theorem FrameState.code_lt (st : FrameState) : st.code < 4 := by cases st <;> decide

theorem Err.code_lt (e : Err) : e.code < 8 := by cases e <;> decide

/-! ### The STATUS word -/

/-- The fields of the STATUS word with CFGERR clear, each in its bits. -/
theorem statusWord_fields {a : Arch} (h : a.status.cfgErr = false) :
    statusWord a < 64 ∧ statusWord a % 2 = a.ct.state.code ∧ statusWord a / 2 % 4 = a.urx.state.code ∧
      statusWord a / 8 % 2 = a.status.ferr.toNum ∧ statusWord a / 16 % 2 = a.status.rxovr.toNum ∧
      statusWord a / 32 % 2 = (txEmpty a.txq).toNum := by
  have hct := a.ct.state.code_lt
  have hurx := a.urx.state.code_lt
  have hferr := Bit.toNum_lt_two a.status.ferr
  have hrxovr := Bit.toNum_lt_two a.status.rxovr
  have hempty := Bit.toNum_lt_two (txEmpty a.txq)
  simp only [statusWord, h, Bool.false_eq_true, if_false]
  omega

/-- Settles O10: STAT answers `statusWord`, whose fields are the codes and flags of R92. -/
theorem statReadsTheStatusWord : Obligations.StatReadsTheStatusWord := by
  unfold Obligations.StatReadsTheStatusWord
  refine fun s => ⟨statusWord s.arch, rfl, fun h => if_pos h, fun h => ?_⟩
  obtain ⟨hlt, hct, hurx, hferr, hrxovr, hempty⟩ := statusWord_fields h
  rw [hferr, hrxovr, hempty]
  exact ⟨hlt, hct, hurx, Bit.toNum_eq_one_iff _, Bit.toNum_eq_one_iff _,
    (Bit.toNum_eq_one_iff _).trans List.isEmpty_iff⟩

/-! ### The response word -/

/-- The fields of the response word, each in its bits. -/
theorem responseWord_fields (r : Response) :
    r.word % 2 = r.ok.toNum ∧ r.word / 2 % 8 = r.err.code ∧ r.word / 16 % 2 = r.bit.toNum ∧
      r.word / 32 % 2 = r.bvalid.toNum ∧ r.word / 64 % 2 = r.ferr.toNum ∧
      r.word / 128 % 2 = r.fail.toNum ∧ r.word / 256 % 256 = r.byte.toNat ∧ r.word / 65536 = r.val := by
  have hok := Bit.toNum_lt_two r.ok
  have herr := r.err.code_lt
  have hbit := Bit.toNum_lt_two r.bit
  have hbvalid := Bit.toNum_lt_two r.bvalid
  have hferr := Bit.toNum_lt_two r.ferr
  have hfail := Bit.toNum_lt_two r.fail
  have hbyte := r.byte.isLt
  simp only [Response.word]
  omega

/-- The response word has 16 bits below a `val` of `argW` bits. -/
theorem responseWord_lt {r : Response} {argW : Nat} (h : r.val < 2 ^ argW) : r.word < 2 ^ (16 + argW) := by
  obtain ⟨_, _, _, _, _, _, _, hval⟩ := responseWord_fields r
  rw [Nat.pow_add]
  omega

/-- Settles O47: each field stands in its bits, and a field of one bit is 1 exactly when it is set. -/
theorem responseWordLayout : Obligations.ResponseWordLayout := by
  unfold Obligations.ResponseWordLayout
  intro r argW hval
  obtain ⟨hok, herr, hbit, hbvalid, hferr, hfail, hbyte, hvalField⟩ := responseWord_fields r
  rw [hok, hbit, hbvalid, hferr, hfail]
  exact ⟨Bit.toNum_eq_one_iff _, herr, Bit.toNum_eq_one_iff _, Bit.toNum_eq_one_iff _,
    Bit.toNum_eq_one_iff _, Bit.toNum_eq_one_iff _, hbyte, hvalField, responseWord_lt hval⟩

end Sys2Proof.Machine
end

