-- ==== Sys2Proof/Proofs/ToneCorrelator.lean ====
section
/-! PROOFS. The correlators: one DEMS step in full, and the window of the last L samples that each of them holds
over the rationals (40_tone_correlator.md R102, R104; 42_demodulator.md R120, R121). -/

namespace Sys2Proof.Machine

/-! ### One DEMS -/

theorem refusalOf_dems {s : State} {x : NUM} (hc : s.arch.status.cfgErr = false)
    (hx : (numOps s.cfg.num).isFinite x = true) : refusalOf (.dems x) s = .none := by
  simp [refusalOf, hc, hx]

/-- Settles O25: DEMS passes its checks and is performed, and what it then commits is the statement's right side
with DEMOD.STEP and CORR.UPD written out. -/
theorem demsDemodulatesOneSample : Obligations.DemsDemodulatesOneSample := by
  unfold Obligations.DemsDemodulatesOneSample
  intro s x hc hx hfin
  exact exec_performed (refusalOf_dems hc hx) hfin

/-! ### The exact correlator -/

/-- The sum of the last `l` samples of `xs` weighted by the powers of `g`, as a pair `(I, Q)` (R104). -/
def windowSum (g : Rat × Rat) (l : Nat) (xs : List Rat) : Rat × Rat :=
  (∑ j ∈ Finset.range l, (cpow g j).1 * past xs j, ∑ j ∈ Finset.range l, (cpow g j).2 * past xs j)

theorem windowSum_nil (g : Rat × Rat) (l : Nat) : windowSum g l [] = (0, 0) := by
  simp [windowSum, past]

/-- A new sample turns the window by `g`, enters it with weight 1, and the sample that leaves takes its weight
`g^l` with it. -/
theorem windowSum_snoc (g : Rat × Rat) (m : Nat) (xs : List Rat) (x : Rat) :
    windowSum g (m + 1) (xs ++ [x]) =
      let w := cmul g (windowSum g (m + 1) xs)
      (x + w.1 - (cpow g (m + 1)).1 * past xs m, w.2 - (cpow g (m + 1)).2 * past xs m) := by
  have hnew (f : Nat → Rat) : ∑ j ∈ Finset.range (m + 1), f j * past (xs ++ [x]) j =
      ∑ j ∈ Finset.range m, f (j + 1) * past xs j + f 0 * x := by
    simp [Finset.sum_range_succ']
  simp only [windowSum, hnew, Finset.sum_range_succ, cpow, cmul, sub_mul, add_mul, mul_assoc,
    Finset.sum_sub_distrib, Finset.sum_add_distrib, ← Finset.mul_sum]
  exact Prod.ext (by ring) (by ring)

/-- From reset the registers hold the window: CORR.UPD with `C + jD = (A + jB)^L` makes the same
update as a new sample makes to the window. -/
theorem corrFeed_windowSum {k : ToneCoef Rat} {l : Nat} (hl : 1 ≤ l)
    (hk : cpow (k.a, k.b) l = (k.c, k.d)) (xs : List Rat) :
    let st := corrFeed k l (0, 0, List.replicate l 0) xs
    (st.1, st.2.1) = windowSum (k.a, k.b) l xs := by
  induction xs using List.reverseRecOn with
  | nil => exact (windowSum_nil _ _).symm
  | append_singleton xs x ih =>
    obtain ⟨m, rfl⟩ : ∃ m, l = m + 1 := ⟨l - 1, by omega⟩
    have hdelayed : delayed 0 (m + 1) (corrFeed k (m + 1) (0, 0, List.replicate (m + 1) 0) xs).2.2 =
        past xs m := by
      rw [corrFeed_delayLine k hl, delayed_delayLine hl, Nat.add_sub_cancel]
    rw [corrFeed_snoc, windowSum_snoc, hk, ← ih]
    simp only [corrFeed, hdelayed, corrUpd, exactOps, cmul]
    exact Prod.ext (by ring) (by ring)

/-- Settles O28: the pair's two components. -/
theorem exactCorrelatorIsASlidingWindow : Obligations.ExactCorrelatorIsASlidingWindow := by
  unfold Obligations.ExactCorrelatorIsASlidingWindow
  intro k l xs hl hk
  exact Prod.ext_iff.mp (corrFeed_windowSum hl hk xs)

/-! ### The correlators of the core over the rationals -/

/-- The registers of one correlator and the delay line, as the rationals they encode: what `corrFeed` runs on. -/
def exactRegs (r : Corr NUM) (dl : List NUM) : Rat × Rat × List Rat := (toRat r.i, toRat r.q, dl.map toRat)

/-- Over the rationals DEMOD.STEP feeds the sample to both exact correlators. -/
theorem demodArch_exactRegs {c : Cfg} (hnum : c.num = .rational) (a : Arch) (x : NUM) :
    exactRegs (demodArch c a x).space (demodArch c a x).dl =
      corrFeed (toneMap toRat c.space) c.l (exactRegs a.space a.dl) [toRat x] ∧
    exactRegs (demodArch c a x).mark (demodArch c a x).dl =
      corrFeed (toneMap toRat c.mark) c.l (exactRegs a.mark a.dl) [toRat x] := by
  obtain ⟨hregs, _⟩ := rationalCoreIsExact.1 c a x hnum
  obtain ⟨hdl, hspace, hmark, _⟩ := DemodRegs.mk.inj hregs
  obtain ⟨hsi, hsq⟩ := Corr.mk.inj hspace
  obtain ⟨hmi, hmq⟩ := Corr.mk.inj hmark
  exact ⟨Prod.ext hsi (Prod.ext hsq hdl), Prod.ext hmi (Prod.ext hmq hdl)⟩

theorem demodFinite_of_rational {c : Cfg} (hnum : c.num = .rational) (a : Arch) (x : NUM) :
    demodFinite c a x = true := by
  simp [demodFinite, numOps_of_rational hnum]

/-- Over the rationals any DEMS operations of a constructed core are a run, and feed their samples to both exact
correlators. -/
theorem runOps_dems_exactRegs (xs : List NUM) (s : State) (hnum : s.cfg.num = .rational)
    (hc : s.arch.status.cfgErr = false) :
    ∃ t rs, runOps (xs.map .dems) s = some (t, rs) ∧
      exactRegs t.arch.space t.arch.dl =
        corrFeed (toneMap toRat s.cfg.space) s.cfg.l (exactRegs s.arch.space s.arch.dl) (xs.map toRat) ∧
      exactRegs t.arch.mark t.arch.dl =
        corrFeed (toneMap toRat s.cfg.mark) s.cfg.l (exactRegs s.arch.mark s.arch.dl) (xs.map toRat) := by
  induction xs generalizing s with
  | nil => exact ⟨s, [], rfl, rfl, rfl⟩
  | cons x xs ih =>
    have hx : (numOps s.cfg.num).isFinite x = true := by
      rw [numOps_of_rational hnum]
      exact rationalOps_isFinite x
    obtain ⟨hspace, hmark⟩ := demodArch_exactRegs hnum s.arch x
    obtain ⟨t, rs, hrun, hts, htm⟩ :=
      ih (s.commit (performed (.dems x) s).1 (performed (.dems x) s).2) hnum
        ((performed_cfgErr (.dems x) s).trans hc)
    refine ⟨t, (performed (.dems x) s).2 :: rs, ?_, ?_, ?_⟩
    · rw [List.map_cons, runOps_cons _ (refusalOf_dems hc hx) (demodFinite_of_rational hnum s.arch x), hrun]
      rfl
    · exact hts.trans (congrArg (corrFeed _ _ · (xs.map toRat)) hspace)
    · exact htm.trans (congrArg (corrFeed _ _ · (xs.map toRat)) hmark)

/-- At construction a correlator and DL hold zeros. -/
theorem exactRegs_initial {c : Cfg} (hnum : c.num = .rational) :
    exactRegs (Arch.initial c).space (Arch.initial c).dl = (0, 0, List.replicate c.l 0) ∧
      exactRegs (Arch.initial c).mark (Arch.initial c).dl = (0, 0, List.replicate c.l 0) := by
  simp [exactRegs, Arch.initial, numOps_of_rational hnum, exactOps]

/-- A correlator that was fed the samples `xs` from reset holds their window. -/
theorem exactRegs_windowSum {k : ToneCoef NUM} {l : Nat} (hl : 1 ≤ l)
    (hk : cpow (toRat k.a, toRat k.b) l = (toRat k.c, toRat k.d)) {r : Corr NUM} {dl : List NUM} {xs : List Rat}
    (hr : exactRegs r dl = corrFeed (toneMap toRat k) l (0, 0, List.replicate l 0) xs) :
    (toRat r.i, toRat r.q) = windowSum (toRat k.a, toRat k.b) l xs := by
  have hwindow := corrFeed_windowSum (k := toneMap toRat k) hl hk xs
  rw [← hr] at hwindow
  exact hwindow

/-- Settles O50: from construction the run feeds both exact correlators from reset, which hold the window. -/
theorem rationalCoreHoldsTheWindow : Obligations.RationalCoreHoldsTheWindow := by
  unfold Obligations.RationalCoreHoldsTheWindow
  intro c xs hnum hv hk
  have hc : (State.construct c).arch.status.cfgErr = false := by simp [Arch.initial, hv]
  have hl : 1 ≤ c.l := (cfgValid_iff.mp hv).1
  obtain ⟨hspace0, hmark0⟩ := exactRegs_initial hnum
  obtain ⟨t, rs, hrun, hspace, hmark⟩ := runOps_dems_exactRegs xs (State.construct c) hnum hc
  refine ⟨t, rs, hrun, List.forall_mem_cons.mpr ⟨?_, List.forall_mem_singleton.mpr ?_⟩⟩
  · exact Prod.ext_iff.mp (exactRegs_windowSum hl (hk c.space (by simp)) (hspace0 ▸ hspace))
  · exact Prod.ext_iff.mp (exactRegs_windowSum hl (hk c.mark (by simp)) (hmark0 ▸ hmark))

end Sys2Proof.Machine
end

