-- ==== Sys2Proof/Proofs/CarrierTracker.lean ====
section
/-! PROOFS. CT.DEC: the smoothing stage, the five rows of the transition table and the silence guard, and the hysteresis
that follows from the rows (41_carrier_tracker.md R111 to R118). -/

namespace Sys2Proof.Machine

/-! ### The rows of the transition table -/

section Rows
variable {dropRun run : Nat} {detect low : Bool} {sgn : Bit}

@[simp] theorem carrierRule_idle_detected :
    carrierRule dropRun true low sgn .idle run = (.carrierDetected, 0, sgn) := rfl

@[simp] theorem carrierRule_idle_quiet :
    carrierRule dropRun false low sgn .idle run = (.idle, run, true) := rfl

@[simp] theorem carrierRule_carrier_strong :
    carrierRule dropRun detect false sgn .carrierDetected run = (.carrierDetected, 0, sgn) := rfl

theorem carrierRule_carrier_low (h : run + 1 < dropRun) :
    carrierRule dropRun detect true sgn .carrierDetected run = (.carrierDetected, run + 1, sgn) :=
  if_neg h.not_ge

theorem carrierRule_carrier_dropped (h : dropRun ≤ run + 1) :
    carrierRule dropRun detect true sgn .carrierDetected run = (.idle, 0, true) :=
  if_pos h

end Rows

/-! ### CT.DEC -/

/-- The guard overrides the bit it is given, and never the idle level (R116). -/
theorem silenceGuard_eq {α : Type} (n : NumOps α) (k : TrackerCoef α) (em es : α) (bit : Bit) :
    silenceGuard n k em es bit =
      (if n.lt em k.silenceT = true ∧ n.lt es k.silenceT = true then fun _ : Bit => true else id) bit := by
  simp only [silenceGuard, Bool.and_eq_true, ite_apply, id]

theorem silenceGuard_true {α : Type} (n : NumOps α) (k : TrackerCoef α) (em es : α) :
    silenceGuard n k em es true = true :=
  ite_self true

/-- CT.DEC commits what the row selected by the smoothed value gives, its bit under the guard (R118). -/
theorem ctDec_of_rule (c : Cfg) (ct : CarrierTracker NUM) (em es : NUM) {row : CarrierState × Nat × Bit} :
    let n := numOps c.num
    let filtered := (smooth n (trackerCoef c) ct.f em es).1
    carrierRule c.dropRun (n.lt c.detectT (n.abs filtered)) (n.lt (n.abs filtered) c.dropT)
        (n.lt n.zero filtered) ct.state ct.run = row →
      (ctDec c ct em es).ct = ⟨filtered, row.1, row.2.1⟩ ∧
        (ctDec c ct em es).bit = silenceGuard n (trackerCoef c) em es row.2.2 := by
  rintro n filtered rfl
  exact ⟨rfl, rfl⟩

/-- Settles O26: CT.DEC commits the row that the state before and the two comparisons select; a row that emits the
idle level does so with or without the guard. -/
theorem carrierFollowsTheTable : Obligations.CarrierFollowsTheTable := by
  unfold Obligations.CarrierFollowsTheTable
  intro c ct em es n filtered mag sgn o bit
  have hguard (b : Bit) : silenceGuard n (trackerCoef c) em es b = bit b := silenceGuard_eq n _ em es b
  have hidle : bit true = true := (hguard true).symm.trans (silenceGuard_true n _ em es)
  have hrow {st : CarrierState} {run : Nat} {b : Bit}
      (h : carrierRule c.dropRun (n.lt c.detectT mag) (n.lt mag c.dropT) sgn ct.state ct.run = (st, run, b)) :
      o.ct.state = st ∧ o.ct.run = run ∧ o.bit = bit b := by
    obtain ⟨hct, hbit⟩ := ctDec_of_rule c ct em es h
    exact ⟨congrArg CarrierTracker.state hct, congrArg CarrierTracker.run hct, hbit.trans (hguard b)⟩
  refine ⟨rfl, fun hs hm => ?_, fun hs hm => ?_, fun hs hm => ?_, fun hs hm hr => ?_, fun hs hm hr => ?_⟩
  · exact hrow (by rw [hs, hm, carrierRule_idle_detected])
  · rw [← hidle]
    exact hrow (by rw [hs, hm, carrierRule_idle_quiet])
  · exact hrow (by rw [hs, hm, carrierRule_carrier_strong])
  · exact hrow (by rw [hs, hm, carrierRule_carrier_low hr])
  · rw [← hidle]
    exact hrow (by rw [hs, hm, carrierRule_carrier_dropped hr])

/-! ### Hysteresis -/

/-- `ct` has the carrier with at most `k` low samples in a row counted. -/
def HoldsCarrier (ct : CarrierTracker NUM) (k : Nat) : Prop :=
  ct.state = .carrierDetected ∧ ct.run ≤ k

/-- One sample that cannot be the `DROP_RUN`-th low one keeps the carrier and counts at most one more. -/
theorem carrierRule_keeps_carrier {dropRun run : Nat} (detect low : Bool) (sgn : Bit) (h : run + 1 < dropRun) :
    (carrierRule dropRun detect low sgn .carrierDetected run).1 = .carrierDetected ∧
      (carrierRule dropRun detect low sgn .carrierDetected run).2.1 ≤ run + 1 := by
  cases low with
  | false => exact ⟨rfl, Nat.zero_le _⟩
  | true =>
    rw [carrierRule_carrier_low h]
    exact ⟨rfl, le_rfl⟩

theorem ctDec_holdsCarrier {c : Cfg} {ct : CarrierTracker NUM} {k : Nat} (em es : NUM)
    (h : HoldsCarrier ct k) (hk : k + 1 < c.dropRun) : HoldsCarrier (ctDec c ct em es).ct (k + 1) := by
  obtain ⟨hstate, hrun⟩ := h
  obtain ⟨hct, _⟩ := ctDec_of_rule c ct em es rfl
  rw [hct, hstate]
  obtain ⟨hkeep, hcount⟩ := carrierRule_keeps_carrier _ _ _ ((Nat.succ_le_succ hrun).trans_lt hk)
  exact ⟨hkeep, hcount.trans (Nat.succ_le_succ hrun)⟩

/-- DEMS leaves the tracker as it was, when refused, or as CT.DEC leaves it. -/
theorem exec_dems_ct {x : NUM} {s t : State} (h : exec (.dems x) s = .next t) :
    t.arch.ct = s.arch.ct ∨ ∃ em es, t.arch.ct = (ctDec s.cfg s.arch.ct em es).ct := by
  obtain ha | ha := exec_arch h
  · exact .inl (congrArg Arch.ct ha)
  · exact .inr ⟨_, _, congrArg Arch.ct ha⟩

theorem exec_dems_holdsCarrier {x : NUM} {s t : State} {k : Nat} (he : exec (.dems x) s = .next t)
    (h : HoldsCarrier s.arch.ct k) (hk : k + 1 < s.cfg.dropRun) : HoldsCarrier t.arch.ct (k + 1) := by
  obtain hct | ⟨em, es, hct⟩ := exec_dems_ct he
  · rw [hct]
    exact h.imp_right Nat.le_succ_of_le
  · rw [hct]
    exact ctDec_holdsCarrier em es h hk

/-- A run of DEMS too short to reach `DROP_RUN` low samples keeps the carrier, whatever was counted before it. -/
theorem runOps_dems_holdsCarrier (xs : List NUM) {s t : State} {rs : List Response} {k : Nat}
    (h : HoldsCarrier s.arch.ct k) (hk : k + xs.length < s.cfg.dropRun)
    (hrun : runOps (xs.map .dems) s = some (t, rs)) : HoldsCarrier t.arch.ct (k + xs.length) := by
  induction xs generalizing s k rs with
  | nil =>
    cases hrun
    exact h
  | cons x xs ih =>
    obtain ⟨u, qs, hexec, hrest, _⟩ := runOps_cons_some hrun
    rw [List.length_cons, Nat.add_comm xs.length, ← Nat.add_assoc] at hk ⊢
    have hu : HoldsCarrier u.arch.ct (k + 1) := exec_dems_holdsCarrier hexec h (by omega)
    exact ih hu (by rwa [(exec_keeps hexec).1]) hrest

/-- Settles O27: the run starts with nothing counted. -/
theorem shortDipKeepsTheCarrier : Obligations.ShortDipKeepsTheCarrier := by
  unfold Obligations.ShortDipKeepsTheCarrier
  intro xs s t rs _ hstate hrun hlen hops
  have hkept := runOps_dems_holdsCarrier xs (k := 0) ⟨hstate, hrun.le⟩ (by rwa [Nat.zero_add]) hops
  rwa [Nat.zero_add] at hkept

end Sys2Proof.Machine
end

