-- ==== Sys2Proof/Proofs/Demodulator.lean ====
section
/-! PROOFS. RXS as the composition of DEMS and RXB (42_demodulator.md R122). -/

namespace Sys2Proof.Machine

/-! ### The checks -/

theorem refusalOf_rxb {s : State} (b rdy : Bit) (hc : s.arch.status.cfgErr = false) :
    refusalOf (.rxb b rdy) s = .none := by
  simp [refusalOf, hc]

/-- RXS passes the checks exactly when DEMS does. -/
theorem refusalOf_rxs (x : NUM) (rdy : Bit) (s : State) : refusalOf (.rxs x rdy) s = refusalOf (.dems x) s := rfl

/-! ### The composition -/

/-- The Bit of a receive response stands apart from what the delivery gives. -/
theorem ofDelivery_eq_with_bit (b b' : Bit) (d : Option Delivery) :
    Response.ofDelivery b d = { Response.ofDelivery b' d with bit := b } := by
  cases d <;> rfl

/-- What RXS commits is what RXB of the demodulated Bit commits after DEMS, with that Bit in the response. -/
theorem performed_rxs (x : NUM) (rdy : Bit) (s : State) :
    let dems := performed (.dems x) s
    let rxb := performed (.rxb dems.2.bit rdy) (s.commit dems.1 dems.2)
    performed (.rxs x rdy) s = (rxb.1, { rxb.2 with bit := dems.2.bit }) :=
  Prod.ext rfl (ofDelivery_eq_with_bit _ false _)

/-- Settles O29: DEMS leaves CFGERR clear, so that its RXB is performed, and RXS commits what the two commit. -/
theorem rxsIsDemsThenRxb : Obligations.RxsIsDemsThenRxb := by
  unfold Obligations.RxsIsDemsThenRxb
  intro s x rdy hc hx hfin
  have hdems : refusalOf (.dems x) s = .none := refusalOf_dems hc hx
  have hrxs : refusalOf (.rxs x rdy) s = .none := (refusalOf_rxs x rdy s).trans hdems
  have hc' : (performed (.dems x) s).1.status.cfgErr = false := (performed_cfgErr (.dems x) s).trans hc
  refine ⟨_, _, (performed (.dems x) s).2.bit, _, exec_performed hdems hfin, rfl,
    exec_performed (refusalOf_rxb _ rdy hc') rfl, rfl, ofDelivery_bit false _, ?_⟩
  rw [exec_performed hrxs hfin, performed_rxs]
  rfl

end Sys2Proof.Machine
end

