-- ==== Sys2Proof/Proofs/Modulator.lean ====
section
/-! PROOFS. The phase advance and the operations built on it: MODB, TXS as the composition of TXB and MODB, and what
writes MOD.phase (43_modulator.md R130 to R134). -/

namespace Sys2Proof.Machine

/-! ### The phase advance -/

/-- The phase after one advance: the sum, less TWO_PI where it reaches TWO_PI (R130). -/
theorem phaseAdvance_fst {α : Type} (n : NumOps α) (twoPi step phase : α) :
    (phaseAdvance n twoPi step phase).1 =
      if n.le twoPi (n.add phase step) = true then n.sub (n.add phase step) twoPi else n.add phase step :=
  apply_ite Prod.fst _ _ _

/-- Settles O22: a sum below TWO_PI stays as it is; one that reaches it is below twice TWO_PI, so one subtraction
brings it back. -/
theorem exactPhaseStaysInTheCircle : Obligations.ExactPhaseStaysInTheCircle := by
  unfold Obligations.ExactPhaseStaysInTheCircle
  intro twoPi d p hp0 hp hd0 hd
  simp only [phaseAdvance_fst, exactOps, decide_eq_true_eq]
  split
  next hwrap => exact ⟨by linarith, by linarith, .inr rfl⟩
  next hbelow => exact ⟨by linarith, not_le.mp hbelow, .inl rfl⟩

/-! ### MODB -/

/-- An operation whose one check is that the core is constructed passes on a constructed core. -/
theorem refusalOf_eq_none_of_constructed {i : Instr} {s : State} (hc : s.arch.status.cfgErr = false)
    (hi : refusalOf i s = if s.arch.status.cfgErr then .cfgErr else .none) : refusalOf i s = .none := by
  rw [hi, hc]
  rfl

/-- MODB of a constructed core without overflow commits the advanced phase and answers SIN of the old one. -/
theorem exec_modb_of_constructed {s : State} {b : Bit} (hc : s.arch.status.cfgErr = false)
    (hfin : phaseFinite s.cfg b s.arch.phase = true) :
    exec (.modb b) s = .next (s.commit (s.arch.setPhase (phaseStep s.cfg b s.arch.phase).1)
      { ok := true, val := modSample s.cfg s.arch.phase }) :=
  exec_performed (refusalOf_eq_none_of_constructed hc rfl) hfin

/-- Settles O21: MODB is performed, with the phase advance written out. -/
theorem modbEmitsThenAdvances : Obligations.ModbEmitsThenAdvances := by
  unfold Obligations.ModbEmitsThenAdvances
  intro s b hc hfin
  rw [exec_modb_of_constructed hc hfin, phaseStep, phaseAdvance_fst]
  rfl

/-! ### TXS -/

/-- What TXS commits is what MODB of the popped Bit commits after TXB, with that Bit in the response. -/
theorem performed_txs (s : State) :
    let txb := performed .txb s
    let modb := performed (.modb txb.2.bit) (s.commit txb.1 txb.2)
    performed .txs s = (modb.1, { modb.2 with bit := txb.2.bit }) :=
  rfl

/-- Settles O23: TXB leaves CFGERR clear and the phase as it was, so that its MODB is performed, and TXS commits what
the two commit. -/
theorem txsIsTxbThenModb : Obligations.TxsIsTxbThenModb := by
  unfold Obligations.TxsIsTxbThenModb
  intro s hc hfin
  have htxb : exec .txb s = .next (s.commit (performed .txb s).1 (performed .txb s).2) :=
    exec_performed (refusalOf_eq_none_of_constructed hc rfl) rfl
  have htxs : exec .txs s = .next (s.commit (performed .txs s).1 (performed .txs s).2) :=
    exec_performed (refusalOf_eq_none_of_constructed hc rfl) hfin
  have hc' : (performed .txb s).1.status.cfgErr = false := (performed_cfgErr .txb s).trans hc
  refine ⟨_, _, (popOrIdle s.arch.txq).1, _, htxb, rfl, exec_modb_of_constructed hc' hfin, rfl, ?_⟩
  rw [htxs, performed_txs]
  rfl

/-! ### The writers of the phase -/

/-- Settles O24: the operations that write the phase when performed are MODB, TXS and RST. -/
theorem onlyModulatorAndResetChangeThePhase : Obligations.OnlyModulatorAndResetChangeThePhase := by
  unfold Obligations.OnlyModulatorAndResetChangeThePhase
  intro i s t h hne
  exact writer_of_changed Arch.phase h (performed_phase i s) hne

end Sys2Proof.Machine
end

