-- ==== Sys2Proof/Proofs/ReceiverStep.lean ====
section
/-! PROOFS. One RXB in each of the receiver's four states, and an idle line (44_uart_receiver.md R141 to R146, R150). -/

namespace Sys2Proof.Machine

/-! ### One RXB -/

/-- RXB of a constructed core commits one URX.STEP, its flags and its delivery. -/
theorem exec_rxb_of_constructed {s : State} (b rdy : Bit) (hc : s.arch.status.cfgErr = false) :
    exec (.rxb b rdy) s = .next (s.commit (s.arch.receive s.cfg b rdy).1
      (Response.ofDelivery false (s.arch.receive s.cfg b rdy).2)) :=
  exec_performed (refusalOf_rxb b rdy hc) rfl

/-- An RXB that delivers nothing writes URX alone and answers plain ok. -/
theorem exec_rxb_of_no_delivery {s : State} {b rdy : Bit} {u : UartRx} (hc : s.arch.status.cfgErr = false)
    (hu : urxStep s.cfg s.arch.urx b rdy = (u, none)) :
    exec (.rxb b rdy) s =
      .next { s with arch := { s.arch with urx := u }, resp := some { ok := true } } := by
  rw [exec_rxb_of_constructed b rdy hc, Arch.receive, hu]
  rfl

/-! ### URX.STEP by state (R140) -/

section
variable {c : Cfg} {u : UartRx} {b rdy : Bit}

theorem urxStep_of_idle (h : u.state = .idle) : urxStep c u b rdy = (urxIdle c u b, none) := by
  simp only [urxStep, h]

theorem urxStep_of_midBit (h : u.state = .midBit) : urxStep c u b rdy = (urxMidBit c u, none) := by
  simp only [urxStep, h]

theorem urxStep_of_receiving (h : u.state = .receiving) :
    urxStep c u b rdy = (urxReceiving c u b, none) := by
  simp only [urxStep, h]

theorem urxStep_of_stopBit (h : u.state = .stopBit) : urxStep c u b rdy = urxStopBit c u b rdy := by
  simp only [urxStep, h]

theorem startQualified_iff (win : List Bit) : startQualified c b win = true ↔
    b = false ∧ win.length = c.win ∧ c.zmin ≤ win.count false ∧ win.head? = some false := by
  change _ ↔ b = false ∧ win.length = c.win ∧ c.zmin ≤ winZeros win ∧ win.head? = some false
  simp [startQualified, winFull, winOldestZero, and_assoc]

/-- The rule of state Idle, with its four conditions written out (R141). -/
theorem urxIdle_eq (c : Cfg) (u : UartRx) (b : Bit) :
    urxIdle c u b =
      if b = false ∧ (winPush c.win b u.win).length = c.win ∧
          c.zmin ≤ (winPush c.win b u.win).count false ∧ (winPush c.win b u.win).head? = some false then
        { state := .midBit, win := winPush c.win b u.win, cnt := 0, bitIndex := 0, acc := 0 }
      else { u with win := winPush c.win b u.win } :=
  if_congr (startQualified_iff _) rfl rfl

/-- An input 1 only enters the window (R141, R150). -/
theorem urxIdle_true (c : Cfg) (u : UartRx) : urxIdle c u true = { u with win := winPush c.win true u.win } := by
  simp [urxIdle_eq]

theorem orBit_eq (acc : Byte) (b : Bit) (i : Nat) :
    orBit acc b i = acc ||| ((if b = true then 1#8 else 0#8) <<< i) := by
  cases b <;> rfl

end

/-! ### The four states -/

/-- Settles O30: URX.STEP in Idle is `urxIdle`, with its conditions written out. -/
theorem idleQualifiesAStartEdge : Obligations.IdleQualifiesAStartEdge := by
  unfold Obligations.IdleQualifiesAStartEdge
  intro s b rdy hc hs
  rw [exec_rxb_of_no_delivery hc (urxStep_of_idle hs), urxIdle_eq]
  rfl

/-- Settles O31: URX.STEP in MidBit is `urxMidBit`, which looks at no input. -/
theorem midBitCountsToSettle : Obligations.MidBitCountsToSettle := by
  unfold Obligations.MidBitCountsToSettle
  intro s b rdy hc hs
  exact exec_rxb_of_no_delivery hc (urxStep_of_midBit hs)

/-- Settles O32: URX.STEP in Receiving is `urxReceiving`, with the OR spelled in 8 bits. -/
theorem receivingSamplesAtSymbolBoundaries : Obligations.ReceivingSamplesAtSymbolBoundaries := by
  unfold Obligations.ReceivingSamplesAtSymbolBoundaries
  intro s b rdy hc hs
  rw [← orBit_eq]
  exact exec_rxb_of_no_delivery hc (urxStep_of_receiving hs)

/-- Settles O33: away from `9·L` URX.STEP in StopBit only counts; at `9·L` it delivers, and the four values of the
input and `rdy` give the flags. -/
theorem stopBitDeliversOnce : Obligations.StopBitDeliversOnce := by
  unfold Obligations.StopBitDeliversOnce
  intro s b rdy hc hs
  constructor
  · intro hcnt
    exact exec_rxb_of_no_delivery hc ((urxStep_of_stopBit hs).trans (if_neg hcnt))
  · intro hcnt
    have hstep : urxStep s.cfg s.arch.urx b rdy = _ := (urxStep_of_stopBit hs).trans (if_pos hcnt)
    rw [exec_rxb_of_constructed b rdy hc, Arch.receive, hstep]
    cases b <;> cases rdy <;> simp [State.commit, Arch.setReceiver, Status.record, Response.ofDelivery]

/-! ### An idle line -/

/-- An input 1 leaves an Idle receiver Idle and the flags as they were, and the answer is plain ok (R150). -/
theorem exec_rxb_idle_one {s : State} (rdy : Bit) (hc : s.arch.status.cfgErr = false)
    (hs : s.arch.urx.state = .idle) :
    ∃ t, exec (.rxb true rdy) s = .next t ∧ t.resp = some { ok := true } ∧
      t.arch.status = s.arch.status ∧ t.arch.urx.state = .idle := by
  have hstep : urxStep s.cfg s.arch.urx true rdy =
      ({ s.arch.urx with win := winPush s.cfg.win true s.arch.urx.win }, none) := by
    rw [urxStep_of_idle hs, urxIdle_true]
  exact ⟨_, exec_rxb_of_no_delivery hc hstep, rfl, rfl, hs⟩

/-- Settles O35, by induction on the inputs: each of them only enters the window. -/
theorem idleLineNeverDelivers : Obligations.IdleLineNeverDelivers := by
  unfold Obligations.IdleLineNeverDelivers
  intro s rdys hc hs
  induction rdys generalizing s with
  | nil => exact ⟨s, [], rfl, hs, rfl, rfl⟩
  | cons rdy rdys ih =>
    obtain ⟨u, hexec, hresp, hstatus, hidle⟩ := exec_rxb_idle_one rdy hc hs
    obtain ⟨t, rs, hrun, hidle', hstatus', hrs⟩ := ih u (hstatus ▸ hc) hidle
    refine ⟨t, { ok := true } :: rs, ?_, hidle', hstatus'.trans hstatus, ?_⟩
    · simp [runOps, hexec, hrun, hresp]
    · rw [hrs, List.length_cons, List.replicate_succ]

end Sys2Proof.Machine
end

