-- ==== Sys2Proof/Proofs/ReceiverFrame.lean ====
section
/-! PROOFS. One frame from its start edge: the settle time, eight data symbols and the stop instant as one run of
URX.STEP (44_uart_receiver.md R142 to R147). -/

namespace Sys2Proof.Machine

/-! ### The byte of a frame -/

/-- The accumulator after `k` data bits, when bit `i` is input number `(i+1)·l` of `bits` (R143, R147). -/
def dataByte (l : Nat) (bits : List Bit) : Nat → Byte
  | 0 => 0
  | k + 1 => orBit (dataByte l bits k) (bits.getD ((k + 1) * l - 1) false) k

theorem orBit_getLsbD (acc : Byte) (b : Bit) (k : Nat) {i : Nat} (hi : i < 8) :
    (orBit acc b k).getLsbD i = (acc.getLsbD i || (decide (i = k) && b)) := by
  have hone : (1#8).getLsbD (i - k) = decide (i - k = 0) := by simp [BitVec.getLsbD_one]
  cases b with
  | false => simp [orBit]
  | true =>
    have hpos : ¬i < k ∧ i - k = 0 ↔ i = k := by omega
    rw [orBit, Bit.toNum_true, BitVec.getLsbD_or, BitVec.getLsbD_shiftLeft, hone]
    simp [hi, ← hpos, -not_lt, -Nat.not_lt]

/-- Of the data bits those taken stand in the accumulator, the others are still 0. -/
theorem dataByte_getLsbD (l : Nat) (bits : List Bit) (k : Nat) {i : Nat} (hi : i < 8) :
    (dataByte l bits k).getLsbD i = (decide (i < k) && bits.getD ((i + 1) * l - 1) false) := by
  induction k with
  | zero => simp [dataByte]
  | succ k ih =>
    rw [dataByte, orBit_getLsbD _ _ _ hi, ih]
    by_cases hik : i = k
    · simp [hik]
    · have hlt : i < k + 1 ↔ i < k := by omega
      simp [hik, hlt]

/-! ### The run -/

/-- The next `l` inputs are `l - 1` of them and the one at the symbol boundary. -/
theorem take_add_symbol {bits : List Bit} {n l : Nat} (hl : 1 ≤ l) (h : n + l ≤ bits.length) :
    bits.take (n + l) = bits.take n ++ ((bits.drop n).take (l - 1) ++ [bits.getD (n + l - 1) false]) := by
  obtain ⟨m, rfl⟩ : ∃ m, l = m + 1 := ⟨l - 1, by omega⟩
  rw [List.take_add, List.take_add_one, List.getElem?_drop, List.getD_eq_getElem?_getD]
  simp [List.getElem?_eq_getElem (show n + m < bits.length by omega), ← Nat.add_assoc]

section
variable (c : Cfg) (rdy : Bit) (w : List Bit)

/-- `k` symbols of Receiving take `k` data bits, and the eighth leads to StopBit (R143). -/
theorem rxRun_symbols (hl : 1 ≤ c.l) (bits : List Bit) {k : Nat} (hk : k ≤ 8)
    (hlen : k * c.l ≤ bits.length) :
    rxRun c rdy ⟨.receiving, w, 0, 0, 0⟩ (bits.take (k * c.l)) =
      (⟨if k = 8 then .stopBit else .receiving, w, k * c.l, k, dataByte c.l bits k⟩,
        List.replicate (k * c.l) none) := by
  induction k with
  | zero => simp [rxRun, dataByte]
  | succ k ih =>
    have hk8 : k ≠ 8 := by omega
    rw [Nat.succ_mul] at hlen ⊢
    rw [take_add_symbol hl hlen, rxRun_append, ih (by omega) (by omega), if_neg hk8,
      rxRun_symbol c rdy _ _ _ rfl rfl (by simp; omega)]
    simp [dataByte, Nat.succ_mul]

/-- `9·L` inputs from the settle point take the data bits and deliver the byte at the stop instant
(R143 to R146). -/
theorem rxRun_receiving_frame (hl : 1 ≤ c.l) {bits : List Bit} (hlen : bits.length = 9 * c.l) :
    rxRun c rdy ⟨.receiving, w, 0, 0, 0⟩ bits =
      (⟨.idle, [], 9 * c.l, 8, dataByte c.l bits 8⟩,
        List.replicate (9 * c.l - 1) none ++
          [some ⟨dataByte c.l bits 8, !bits.getD (9 * c.l - 1) false, !rdy⟩]) := by
  have hsplit : bits = bits.take (8 * c.l + c.l) := by rw [List.take_of_length_le (by omega)]
  have hlast : 8 * c.l + c.l - 1 = 9 * c.l - 1 := by omega
  have hquiet : 9 * c.l - 1 = 8 * c.l + (c.l - 1) := by omega
  rw [take_add_symbol hl (by omega), hlast] at hsplit
  conv_lhs => rw [hsplit]
  rw [rxRun_append, rxRun_symbols c rdy w hl bits (Nat.le_refl 8) (by omega), if_pos rfl,
    rxRun_delivery c rdy _ _ _ rfl rfl (by simp; omega), hquiet, List.replicate_add, List.append_assoc]

/-- From a start edge, `SETTLE + 9·L` inputs make one frame, which the last of them delivers (R142 to R147). -/
theorem rxRun_frame (hl : 1 ≤ c.l) (hsettle : 1 ≤ c.settle) {bits : List Bit}
    (hlen : bits.length = c.settle + 9 * c.l) :
    rxRun c rdy ⟨.midBit, w, 0, 0, 0⟩ bits =
      (⟨.idle, [], 9 * c.l, 8, dataByte c.l (bits.drop c.settle) 8⟩,
        List.replicate (c.settle + 9 * c.l - 1) none ++
          [some ⟨dataByte c.l (bits.drop c.settle) 8, !bits.getD (c.settle + 9 * c.l - 1) false, !rdy⟩]) := by
  have hcount : (bits.take c.settle).length = c.settle := by simp; omega
  have hquiet : c.settle + 9 * c.l - 1 = c.settle + (9 * c.l - 1) := by omega
  have hlast : (bits.drop c.settle).getD (9 * c.l - 1) false = bits.getD (c.settle + (9 * c.l - 1)) false := by
    simp [List.getD_eq_getElem?_getD]
  conv_lhs => rw [← List.take_append_drop c.settle bits]
  rw [rxRun_append, rxRun_settle c rdy _ _ rfl rfl hsettle hcount,
    rxRun_receiving_frame c rdy w hl (by simp; omega), hcount, hquiet, hlast, List.replicate_add,
    List.append_assoc]

end

/-- The data bits of a frame are the inputs number `SETTLE + (i+1)·L` after its start edge (R147). -/
theorem dataByte_drop_getLsbD {l settle : Nat} (hl : 1 ≤ l) (bits : List Bit) {i : Nat} (hi : i < 8) :
    (dataByte l (bits.drop settle) 8).getLsbD i = bits.getD (settle + (i + 1) * l - 1) false := by
  have hpos : settle + ((i + 1) * l - 1) = settle + (i + 1) * l - 1 := by
    have hsymbol : 1 ≤ (i + 1) * l := Nat.mul_pos (Nat.succ_pos i) hl
    omega
  rw [dataByte_getLsbD l _ 8 hi, List.getD_eq_getElem?_getD, List.getElem?_drop, hpos]
  simp [hi]

/-- Settles O36: the run of the receiver over the frame, with the byte's bits read off the inputs. -/
theorem qualifiedEdgeMakesOneFrame : Obligations.QualifiedEdgeMakesOneFrame := by
  unfold Obligations.QualifiedEdgeMakesOneFrame
  intro s bits hc hv hu hcnt hidx hacc hlen
  obtain ⟨hl, _, _, hsettle, _, _⟩ := cfgValid_iff.mp hv
  have hedge : s.arch.urx = ⟨.midBit, s.arch.urx.win, 0, 0, 0⟩ := by
    change UartRx.mk s.arch.urx.state _ s.arch.urx.cnt s.arch.urx.bitIndex s.arch.urx.acc = _
    rw [hu, hcnt, hidx, hacc]
  obtain ⟨t, st, hrun, harch, _, _⟩ := runOps_rxb true bits s hc
  rw [hedge, rxRun_frame s.cfg true _ hl hsettle hlen] at hrun harch
  have hinput {j : Nat} (hj : j < bits.length) : bits[j]? = some (bits.getD j false) := by
    simp [hj]
  refine ⟨t, dataByte s.cfg.l (bits.drop s.cfg.settle) 8, ?_, fun i hi => ?_, ?_, ?_⟩
  · have hlast : bits.getLast? = some (bits.getD (s.cfg.settle + 9 * s.cfg.l - 1) false) := by
      rw [List.getLast?_eq_getElem?, hlen, hinput (by omega)]
    rw [hrun, hlast]
    cases bits.getD (s.cfg.settle + 9 * s.cfg.l - 1) false <;> simp [Response.ofDelivery]
  · rw [dataByte_drop_getLsbD hl bits hi]
    have hle : (i + 1) * s.cfg.l ≤ 9 * s.cfg.l := Nat.mul_le_mul_right _ (by omega)
    exact hinput (by omega)
  · rw [harch]; rfl
  · rw [harch]; rfl

end Sys2Proof.Machine
end

