-- ==== Sys2Proof/Proofs/Loopback.lean ====
section
/-! PROOFS. Bit-level loopback: the frames of the transmitter, with idle ones around them, through the receiver
(44_uart_receiver.md R149; 45_uart_transmitter.md R161). -/

namespace Sys2Proof.Machine

/-! ### The start edge -/

/-- A zero pushed into a window of ones and then zeros, fewer zeros than WIN, leaves such a window. -/
theorem winPush_false {w m k : Nat} (hlen : m + k ≤ w) (hk : k < w) :
    ∃ m', m' + (k + 1) ≤ w ∧ winPush w false (List.replicate m true ++ List.replicate k false) =
      List.replicate m' true ++ List.replicate (k + 1) false := by
  by_cases hfull : m + k < w
  · exact ⟨m, hfull, by simp [winPush, hfull, List.replicate_succ']⟩
  · obtain ⟨m', rfl⟩ : ∃ m', m = m' + 1 := ⟨m - 1, by omega⟩
    refine ⟨m', by omega, (if_neg (by simpa using hfull)).trans ?_⟩
    simp [List.replicate_succ, ← List.replicate_succ']

/-- A window of ones and then zeros qualifies an edge exactly when it is WIN zeros (R141). -/
theorem startQualified_ones_zeros {c : Cfg} {m k : Nat} (hz : c.zmin ≤ c.win) (hk : 1 ≤ k)
    (hlen : m + k ≤ c.win) :
    startQualified c false (List.replicate m true ++ List.replicate k false) = true ↔ k = c.win := by
  rw [startQualified_iff]
  cases m with
  | zero => simp [List.head?_replicate]; omega
  | succ m => simp [List.replicate_succ]; omega

section
variable {c : Cfg} (rdy : Bit)

/-- Zeros into a window of ones and then `k` zeros qualify an edge at the WIN-th zero (R141). -/
theorem rxRun_zeros (hz : c.zmin ≤ c.win) (n : Nat) {k m : Nat} {u : UartRx} (hu : u.state = .idle)
    (hwin : u.win = List.replicate m true ++ List.replicate k false) (hlen : m + k ≤ c.win)
    (hn : k + (n + 1) = c.win) :
    rxRun c rdy u (List.replicate (n + 1) false) =
      (⟨.midBit, List.replicate c.win false, 0, 0, 0⟩, List.replicate (n + 1) none) := by
  induction n generalizing k m u with
  | zero =>
    obtain ⟨m', hlen', hpush⟩ := winPush_false hlen (by omega)
    have hedge := (startQualified_ones_zeros hz (Nat.le_add_left 1 k) hlen').mpr hn
    obtain rfl : m' = 0 := by omega
    rw [List.replicate_one, rxRun, urxStep_of_idle hu, urxIdle, hwin, hpush, if_pos hedge, ← hn]
    rfl
  | succ n ih =>
    obtain ⟨m', hlen', hpush⟩ := winPush_false hlen (by omega)
    have hquiet : ¬_ := (startQualified_ones_zeros hz (Nat.le_add_left 1 k) hlen').not.mpr (by omega)
    have hrest := ih (u := { u with win := List.replicate m' true ++ List.replicate (k + 1) false }) hu rfl
      hlen' (by omega)
    rw [List.replicate_succ, rxRun, urxStep_of_idle hu, urxIdle, hwin, hpush, if_neg hquiet, hrest]
    rfl

/-! ### A waiting receiver -/

/-- A receiver that waits for a frame: Idle, with nothing but ones in the window (R149). -/
structure Waiting (c : Cfg) (u : UartRx) : Prop where
  idle : u.state = .idle
  ones : ∀ b ∈ u.win, b = true
  fits : u.win.length ≤ c.win

/-- WIN zeros lead a waiting receiver to the start edge (R141). -/
theorem Waiting.rxRun_startEdge {u : UartRx} (h : Waiting c u) (hw : 1 ≤ c.win) (hz : c.zmin ≤ c.win) :
    rxRun c rdy u (List.replicate c.win false) =
      (⟨.midBit, List.replicate c.win false, 0, 0, 0⟩, List.replicate c.win none) := by
  have hones : u.win = List.replicate u.win.length true ++ List.replicate 0 false := by
    simpa using List.eq_replicate_of_mem h.ones
  obtain ⟨n, hn⟩ : ∃ n, c.win = n + 1 := ⟨c.win - 1, by omega⟩
  have hrun := rxRun_zeros rdy hz n h.idle hones h.fits (by omega)
  rwa [← hn] at hrun

/-- From any waiting state the inputs make exactly the deliveries `ds`, and the receiver waits again. -/
def Delivers (c : Cfg) (rdy : Bit) (bits : List Bit) (ds : List Delivery) : Prop :=
  ∀ u, Waiting c u → Waiting c (rxRun c rdy u bits).1 ∧ (rxRun c rdy u bits).2.reduceOption = ds

variable {rdy}

theorem Delivers.append {bits bits' : List Bit} {ds ds' : List Delivery} (h : Delivers c rdy bits ds)
    (h' : Delivers c rdy bits' ds') : Delivers c rdy (bits ++ bits') (ds ++ ds') := by
  intro u hu
  obtain ⟨hwait, hds⟩ := h u hu
  obtain ⟨hwait', hds'⟩ := h' _ hwait
  rw [rxRun_append]
  exact ⟨hwait', by rw [List.reduceOption_append, hds, hds']⟩

/-- An idle line delivers nothing (R150). -/
theorem delivers_ones (hw : 1 ≤ c.win) (n : Nat) : Delivers c rdy (List.replicate n true) [] := by
  intro u hu
  obtain ⟨w, hones, hfits, hrun⟩ := rxRun_idle c rdy hw n u hu.idle hu.ones hu.fits
  rw [hrun]
  exact ⟨⟨hu.idle, hones, hfits⟩, List.reduceOption_replicate_none⟩

/-! ### A transmitted frame -/

/-- A frame begins with its start symbol (R161). -/
theorem frame_take {l n : Nat} (y : Byte) (hn : n ≤ l) :
    (expand l (frameBits y)).take n = List.replicate n false := by
  rw [frameBits, expand_cons, List.take_append_of_le_length (by simpa using hn), List.take_replicate,
    Nat.min_eq_left hn]

/-- A frame ends with its stop symbol (R161). -/
theorem frame_drop {l n : Nat} (y : Byte) (hn : 9 * l ≤ n) :
    (expand l (frameBits y)).drop n = List.replicate (10 * l - n) true := by
  have hsplit : expand l (frameBits y) = expand l (frameBits y).dropLast ++ List.replicate l true := by
    simp [frameBits]
  have hlen : (expand l (frameBits y).dropLast).length = 9 * l := by simp
  rw [hsplit, List.drop_append, List.drop_of_length_le (by omega), hlen, List.nil_append, List.drop_replicate]
  congr 1
  omega

/-- Symbol `k` of a frame, at each of its bit-samples (R161). -/
theorem frame_getD {l k j : Nat} (y : Byte) (hj : j < l) :
    (expand l (frameBits y)).getD (k * l + j) false = (frameBits y).getD k false := by
  rw [List.getD_eq_getElem?_getD, expand_getElem? l _ k j hj, List.getD_eq_getElem?_getD]

theorem frameBits_data (y : Byte) {i : Nat} (hi : i < 8) : (frameBits y).getD (i + 1) false = y.getLsbD i := by
  interval_cases i <;> rfl

/-- The input `k` symbols after the settle time lies in symbol `k` of the frame, where `WIN + SETTLE <= L` (R149). -/
theorem frame_sample (y : Byte) {l win settle k : Nat} (hsettle : 1 ≤ settle) (hl : win + settle ≤ l)
    (hk : k ≤ 9) :
    (((expand l (frameBits y)).drop win).take (settle + 9 * l)).getD (settle + k * l - 1) false =
      (frameBits y).getD k false := by
  have hkl : k * l ≤ 9 * l := Nat.mul_le_mul_right l hk
  have hpos : win + (settle + k * l - 1) = k * l + (win + settle - 1) := by omega
  rw [← frame_getD y (show win + settle - 1 < l by omega), List.getD_eq_getElem?_getD,
    List.getElem?_take_of_lt (by omega), List.getElem?_drop, hpos, List.getD_eq_getElem?_getD]

theorem dataByte_frame (y : Byte) {l win settle : Nat} (hsettle : 1 ≤ settle) (hl : win + settle ≤ l) :
    dataByte l ((((expand l (frameBits y)).drop win).take (settle + 9 * l)).drop settle) 8 = y := by
  refine BitVec.eq_of_getLsbD_eq fun i hi => ?_
  rw [dataByte_drop_getLsbD (by omega) _ hi, frame_sample y hsettle hl (by omega), frameBits_data y hi]

/-- A frame is WIN samples of its start symbol, the inputs from there to the stop instant, and what is left of its
stop symbol. -/
theorem frame_split (y : Byte) {l win settle : Nat} (hl : win + settle ≤ l) :
    expand l (frameBits y) = List.replicate win false ++
      ((expand l (frameBits y)).drop win).take (settle + 9 * l) ++
      List.replicate (10 * l - (win + (settle + 9 * l))) true := by
  rw [← frame_drop y (show 9 * l ≤ win + (settle + 9 * l) by omega), ← frame_take y (show win ≤ l by omega),
    ← List.drop_drop, List.append_assoc, List.take_append_drop, List.take_append_drop]

/-! ### Deliveries -/

/-- WIN zeros and any `SETTLE + 9·L` further inputs deliver one byte (R141 to R147). -/
theorem delivers_edge_frame (hv : cfgValid c = true) {bits : List Bit} (hlen : bits.length = c.settle + 9 * c.l) :
    Delivers c rdy (List.replicate c.win false ++ bits)
      [⟨dataByte c.l (bits.drop c.settle) 8, !bits.getD (c.settle + 9 * c.l - 1) false, !rdy⟩] := by
  obtain ⟨hl, hw, hz, hsettle, _, _⟩ := cfgValid_iff.mp hv
  intro u hu
  rw [rxRun_append, hu.rxRun_startEdge rdy hw hz, rxRun_frame c rdy _ hl hsettle hlen]
  exact ⟨⟨rfl, by simp, Nat.zero_le _⟩, by simp [List.reduceOption_append, List.reduceOption_replicate_none]⟩

/-- With `WIN + SETTLE <= L` a frame delivers its byte, without a framing error, and the rest of its stop symbol is
idle (R149). -/
theorem delivers_frame (hv : cfgValid c = true) (hloop : c.win + c.settle ≤ c.l) (y : Byte) :
    Delivers c rdy (expand c.l (frameBits y)) [⟨y, false, !rdy⟩] := by
  obtain ⟨hl, hw, _, hsettle, _, _⟩ := cfgValid_iff.mp hv
  have hframe := delivers_edge_frame (rdy := rdy) hv
    (bits := ((expand c.l (frameBits y)).drop c.win).take (c.settle + 9 * c.l)) (by simp; omega)
  rw [dataByte_frame y hsettle hloop, frame_sample y hsettle hloop (Nat.le_refl 9)] at hframe
  rw [frame_split y hloop]
  exact hframe.append (delivers_ones hw _)

/-- Frames with idle ones before each of them deliver their bytes in order (R149). -/
theorem delivers_frames (hv : cfgValid c = true) (hloop : c.win + c.settle ≤ c.l) (frames : List (Nat × Byte)) :
    Delivers c rdy (frames.flatMap fun f => List.replicate f.1 true ++ expand c.l (frameBits f.2))
      (frames.map fun f => ⟨f.2, false, !rdy⟩) := by
  obtain ⟨_, hw, _, _, _, _⟩ := cfgValid_iff.mp hv
  induction frames with
  | nil => exact fun u hu => ⟨hu, rfl⟩
  | cons f frames ih => exact ((delivers_ones hw f.1).append (delivers_frame hv hloop f.2)).append ih

end

/-- The sink obtains the bytes of the deliveries that did not fail (30_encoding.md R83). -/
theorem sinkBytes_ofDelivery (b : Bit) (ds : List (Option Delivery)) :
    sinkBytes (ds.map (Response.ofDelivery b)) = (ds.reduceOption.filter (!·.fail)).map (·.byte) := by
  induction ds with
  | nil => rfl
  | cons d ds ih =>
    rw [sinkBytes] at ih ⊢
    rw [List.map_cons, List.filterMap_cons, ih]
    cases d with
    | none => rfl
    | some d => cases hfail : d.fail <;> simp [Response.ofDelivery, List.reduceOption_cons_of_some, hfail]

/-- A receive response carries `ferr` or `fail` only where it carries a delivery that does (30_encoding.md R83). -/
theorem ofDelivery_clean {b : Bit} {ds : List (Option Delivery)}
    (h : ∀ d ∈ ds.reduceOption, d.ferr = false ∧ d.fail = false) :
    ∀ r ∈ ds.map (Response.ofDelivery b), r.ferr = false ∧ r.fail = false := by
  rw [List.forall_mem_map]
  intro d hd
  cases d with
  | none => exact ⟨rfl, rfl⟩
  | some d => exact h d (List.reduceOption_mem_iff.mpr hd)

/-- Settles O37: the run of the core is a run of its receiver, the frames and the idle ones deliver the bytes sent,
and a delivery is what a response shows the sink. -/
theorem loopbackDeliversTheBytesSent : Obligations.LoopbackDeliversTheBytesSent := by
  unfold Obligations.LoopbackDeliversTheBytesSent
  intro s frames n hc hv hloop hidle hones hfits
  obtain ⟨_, hw, _, _, _, _⟩ := cfgValid_iff.mp hv
  have hdelivers := (delivers_frames (rdy := true) hv hloop frames).append (delivers_ones hw n)
  obtain ⟨hwait, hds⟩ := hdelivers s.arch.urx ⟨hidle, hones, hfits⟩
  obtain ⟨t, st, hrun, harch, _, _⟩ := runOps_rxb true _ s hc
  refine ⟨t, _, hrun, ?_, ofDelivery_clean ?_, ?_⟩
  · rw [sinkBytes_ofDelivery, hds]
    simp [List.filter_map, Function.comp_def]
  · rw [hds, List.append_nil, List.forall_mem_map]
    exact fun _ _ => ⟨rfl, rfl⟩
  · rw [harch]
    exact hwait.idle

end Sys2Proof.Machine
end

