-- ==== Sys2Proof/Proofs/Transmitter.lean ====
section
/-! PROOFS. The transmit queue: TXQ takes a frame or refuses it whole, TXB pops or fills with the idle level, and TXBs
drain what TXQ queued (45_uart_transmitter.md R160 to R165). -/

namespace Sys2Proof.Machine

/-! ### TXQ -/

/-- TXQ of a constructed core passes when the queue takes the frame and is full otherwise (R164). -/
theorem refusalOf_txq {s : State} (y : Byte) (hc : s.arch.status.cfgErr = false) :
    refusalOf (.txq y) s = if queueTakes s.cfg.txqCap s.arch.txq (10 * s.cfg.l) then .none else .txFull := by
  simp [refusalOf, hc]

/-- TXQ of a constructed core whose queue takes the frame commits the frame at its end (R160). -/
theorem exec_txq_of_takes {s : State} (y : Byte) (hc : s.arch.status.cfgErr = false)
    (hq : queueTakes s.cfg.txqCap s.arch.txq (10 * s.cfg.l) = true) :
    exec (.txq y) s =
      .next (s.commit (s.arch.setQueue (s.arch.txq ++ expand s.cfg.l (frameBits y))) { ok := true }) :=
  exec_performed ((refusalOf_txq y hc).trans (if_pos hq)) rfl

/-- TXQ of a constructed core whose queue does not take the frame is refused with TXFULL (R164). -/
theorem exec_txq_of_full {s : State} (y : Byte) (hc : s.arch.status.cfgErr = false)
    (hq : ¬queueTakes s.cfg.txqCap s.arch.txq (10 * s.cfg.l) = true) :
    exec (.txq y) s = .next (s.refuse .txFull) := by
  have hfull : refusalOf (.txq y) s = .txFull := (refusalOf_txq y hc).trans (if_neg hq)
  rw [exec_refused (by simp [hfull]), hfull]

/-- The ten symbols of a frame by number: start bit, data bits LSB first, stop bit (R161). -/
theorem frameBits_getElem? (y : Byte) {k : Nat} (hk : k ≤ 9) :
    (frameBits y)[k]? = some (if k = 0 then false else if k = 9 then true else y.getLsbD (k - 1)) := by
  interval_cases k <;> rfl

/-- Settles O17: the queue takes the frame, and bit-sample `k·L + j` of its expansion is symbol `k`. -/
theorem txqAppendsTheFrame : Obligations.TxqAppendsTheFrame := by
  unfold Obligations.TxqAppendsTheFrame
  intro s y hc hroom
  refine ⟨expand s.cfg.l (frameBits y), exec_txq_of_takes y hc ((queueTakes_iff ..).mpr hroom), ?_, ?_⟩
  · rw [expand_length, frameBits_length]
  · intro k j hk hj
    rw [expand_getElem? _ _ _ _ hj, frameBits_getElem? y hk]

/-- Settles O18: a finite capacity below what the frame needs makes the queue refuse it, an infinite one never does. -/
theorem queueFullRefusesTheFrame : Obligations.QueueFullRefusesTheFrame := by
  unfold Obligations.QueueFullRefusesTheFrame
  intro s y hc
  constructor
  · intro cap hcap hfull
    refine exec_txq_of_full y hc fun htakes => ?_
    have hroom := (queueTakes_iff ..).mp htakes cap hcap
    omega
  · intro hcap
    have htakes := (queueTakes_iff s.cfg.txqCap s.arch.txq (10 * s.cfg.l)).mpr (by simp [hcap])
    exact ⟨_, exec_txq_of_takes y hc htakes, rfl⟩

/-! ### TXB -/

/-- TXB of a constructed core commits the queue after the pop and answers the Bit (R162, R163). -/
theorem exec_txb_of_constructed {s : State} (hc : s.arch.status.cfgErr = false) :
    exec .txb s = .next (s.commit (s.arch.setQueue (popOrIdle s.arch.txq).2)
      { ok := true, bit := (popOrIdle s.arch.txq).1 }) :=
  exec_performed (refusalOf_eq_none_of_constructed hc rfl) rfl

/-- Writing the queue that stands there changes nothing. -/
theorem Arch.setQueue_self {a : Arch} {q : List Bit} (h : a.txq = q) : a.setQueue q = a := by
  rw [← h]
  rfl

/-- Settles O19: TXB commits the pop, which of an empty queue is the idle level and the same empty queue. -/
theorem txbPopsOrIdleFills : Obligations.TxbPopsOrIdleFills := by
  unfold Obligations.TxbPopsOrIdleFills
  intro s hc
  rw [exec_txb_of_constructed hc]
  constructor
  · intro b q hq
    rw [hq]
    rfl
  · intro hempty
    rw [hempty, popOrIdle, Arch.setQueue_self hempty]
    rfl

/-! ### Draining the queue -/

/-- The popped Bit and the next `m` are the first `m + 1` entries of the queue with idle ones behind it (R163). -/
theorem popOrIdle_cons_take (q : List Bit) (m : Nat) :
    (popOrIdle q).1 :: ((popOrIdle q).2 ++ List.replicate m true).take m =
      (q ++ List.replicate (m + 1) true).take (m + 1) := by
  cases q with
  | nil => rfl
  | cons b q =>
    rw [List.cons_append, List.take_succ_cons, List.replicate_succ', ← List.append_assoc,
      List.take_append_of_le_length (l₁ := q ++ List.replicate m true) (by simp)]
    rfl

theorem popOrIdle_drop (q : List Bit) (m : Nat) : (popOrIdle q).2.drop m = q.drop (m + 1) := by
  cases q with
  | nil => simp [popOrIdle]
  | cons b q => rfl

/-- `m` TXBs answer the first `m` entries of the queue with idle ones behind it, and remove them (R162, R163). -/
theorem runOps_txb (m : Nat) {s : State} (hc : s.arch.status.cfgErr = false) :
    ∃ t rs, runOps (List.replicate m .txb) s = some (t, rs) ∧
      t.arch = s.arch.setQueue (s.arch.txq.drop m) ∧
      rs.map (·.bit) = (s.arch.txq ++ List.replicate m true).take m := by
  induction m generalizing s with
  | zero => exact ⟨s, [], rfl, rfl, rfl⟩
  | succ m ih =>
    have hc' : (performed .txb s).1.status.cfgErr = false := (performed_cfgErr .txb s).trans hc
    obtain ⟨t, rs, hrun, harch, hbits⟩ := ih (s := s.commit (performed .txb s).1 (performed .txb s).2) hc'
    refine ⟨t, (performed .txb s).2 :: rs, ?_, ?_, ?_⟩
    · rw [List.replicate_succ, runOps_cons _ (refusalOf_eq_none_of_constructed hc rfl) rfl, hrun]
      rfl
    · rw [harch, ← popOrIdle_drop]
      rfl
    · rw [List.map_cons, hbits, ← popOrIdle_cons_take]
      rfl

/-- Settles O20: after TXQ the queue is the frame, and `10·L + n` TXBs take all of it and `n` idle ones. -/
theorem drainReturnsTheFrame : Obligations.DrainReturnsTheFrame := by
  unfold Obligations.DrainReturnsTheFrame
  intro s y n hc hempty hroom
  have htakes : queueTakes s.cfg.txqCap s.arch.txq (10 * s.cfg.l) = true :=
    (queueTakes_iff ..).mpr (by simpa [hempty] using hroom)
  have hlen : (expand s.cfg.l (frameBits y)).length = 10 * s.cfg.l := expand_length _ _
  have hc' : (performed (.txq y) s).1.status.cfgErr = false := (performed_cfgErr (.txq y) s).trans hc
  have hqueue : (performed (.txq y) s).1.txq = expand s.cfg.l (frameBits y) := by
    rw [performed, Arch.setQueue_txq, hempty, List.nil_append]
  obtain ⟨t, rs, hrun, harch, hbits⟩ :=
    runOps_txb (10 * s.cfg.l + n) (s := s.commit (performed (.txq y) s).1 (performed (.txq y) s).2) hc'
  rw [State.commit_arch, hqueue] at harch hbits
  refine ⟨t, (performed (.txq y) s).2 :: rs, ?_, ?_, ?_⟩
  · rw [runOps_cons _ ((refusalOf_txq y hc).trans (if_pos htakes)) rfl, hrun]
    rfl
  · rw [harch, List.drop_of_length_le (by omega)]
    exact Arch.setQueue_self hempty
  · have htail : n ≤ 10 * s.cfg.l + n := Nat.le_add_left _ _
    rw [List.map_cons, hbits, ← hlen, List.take_length_add_append, List.take_replicate, hlen,
      Nat.min_eq_left htail]
    rfl

end Sys2Proof.Machine
end

/-! PROOFS. The system operations: NOP only answers, and RST puts a constructed core back into its reset state
(46_system_ops.md R170, R171). -/

namespace Sys2Proof.Machine

/-! ### NOP -/

/-- Settles O8: NOP passes its checks in every state, and what it commits is the state of the core as it was. -/
theorem nopOnlyAnswersOk : Obligations.NopOnlyAnswersOk := by
  unfold Obligations.NopOnlyAnswersOk
  exact fun s => exec_performed (i := .nop) (s := s) rfl rfl

/-! ### RST -/

/-- RST of a core that is not constructed is refused with CFGERR (R181). -/
theorem exec_rst_of_cfgErr {s : State} (h : s.arch.status.cfgErr = true) :
    exec .rst s = .next (s.refuse .cfgErr) := by
  have hrefused : refusalOf .rst s = .cfgErr := if_pos h
  rw [exec_refused (by simp [hrefused]), hrefused]

/-- With a valid CFG, RST of a constructed core leaves what construction leaves (R171). -/
theorem resetKeepingCfgErr_eq_initial {c : Cfg} {a : Arch} (hc : a.status.cfgErr = false)
    (hv : cfgValid c = true) : a.resetKeepingCfgErr c = Arch.initial c := by
  simp [Arch.resetKeepingCfgErr, Arch.initial, hc, hv]

/-- The reset values do not depend on the state RST starts from, so a second RST commits them again (R171). -/
theorem exec_rst_of_rst {s t : State} (hc : s.arch.status.cfgErr = false) (h : exec .rst s = .next t) :
    exec .rst t = .next t := by
  rw [exec_rst_of_constructed hc] at h
  cases h
  exact exec_rst_of_constructed (s := s.commit (s.arch.resetKeepingCfgErr s.cfg) { ok := true }) hc

/-- After RST of a constructed core both units are idle, no flag is set and the queue is empty, so that of the
STATUS word only TXE is set (R92). -/
theorem statusWord_resetKeepingCfgErr {a : Arch} (c : Cfg) (h : a.status.cfgErr = false) :
    statusWord (a.resetKeepingCfgErr c) = 0x20 := by
  rw [statusWord, Arch.resetKeepingCfgErr_status, h]
  rfl

/-- Settles O9: an unconstructed core refuses RST; of a constructed one RST commits the reset values, which a second
RST commits again and STAT reads. -/
theorem rstRestoresTheResetState : Obligations.RstRestoresTheResetState := by
  unfold Obligations.RstRestoresTheResetState
  refine fun s => ⟨exec_rst_of_cfgErr, fun hc => ?_⟩
  have hrst := exec_rst_of_constructed hc
  refine ⟨_, hrst, ?_, resetKeepingCfgErr_eq_initial hc, exec_rst_of_rst hc hrst, ?_⟩
  · rw [Arch.resetKeepingCfgErr, hc]
    rfl
  · rw [← statusWord_resetKeepingCfgErr s.cfg hc]
    exact exec_performed (i := .stat) rfl rfl

end Sys2Proof.Machine


/-! PROOFS. The checks of an operation and the one thing a refusal does (60_exceptions.md R181, R187 to R191), the
operation word and the step that performs it (30_encoding.md R80 to R87), and the invariant that construction meets and
every step keeps (10_state.md section 6). -/

namespace Sys2Proof.Machine

/-! ### What an operation answers -/

/-- The response to an operation: that of its refusal, with no other field set, or the performed operation's. -/
theorem exec_answer {i : Instr} {s t : State} {r : Response} (h : exec i s = .next t) (hr : t.resp = some r) :
    (refusalOf i s ≠ .none ∧ t = s.refuse (refusalOf i s) ∧ r = { err := refusalOf i s }) ∨
    (refusalOf i s = .none ∧ t = s.commit (performed i s).1 (performed i s).2 ∧ r = (performed i s).2) := by
  obtain ⟨hrefused, rfl⟩ | ⟨hpass, _, rfl⟩ := exec_next h
  · exact .inl ⟨hrefused, rfl, (Option.some.inj hr).symm⟩
  · exact .inr ⟨hpass, rfl, (Option.some.inj hr).symm⟩

/-- The error reported is the refusal, and `ok` is set when there is none (30_encoding.md R83). -/
theorem exec_answer_err {i : Instr} {s t : State} {r : Response} (h : exec i s = .next t) (hr : t.resp = some r) :
    r.err = refusalOf i s ∧ (r.ok = true ↔ r.err = .none) := by
  obtain ⟨hrefused, _, rfl⟩ | ⟨hpass, _, rfl⟩ := exec_answer h hr
  · exact ⟨rfl, by simp [hrefused]⟩
  · obtain ⟨hok, herr⟩ := performed_ok i s
    exact ⟨herr.trans hpass.symm, by simp [hok, herr]⟩

/-- Settles O15: an answer without `ok` is not a performed operation's, so it is a refusal's. -/
theorem refusedOperationChangesNothing : Obligations.RefusedOperationChangesNothing := by
  unfold Obligations.RefusedOperationChangesNothing
  intro i s t r h hr hok
  obtain ⟨hrefused, rfl, rfl⟩ | ⟨_, _, rfl⟩ := exec_answer h hr
  · exact ⟨hrefused, rfl⟩
  · rw [(performed_ok i s).1] at hok
    cases hok

/-! ### The checks in order -/

theorem exec_of_refusal {i : Instr} {s : State} {e : Err} (hr : refusalOf i s = e) (he : e ≠ .none) :
    exec i s = .next (s.refuse e) := by
  subst hr
  exact exec_refused he

/-- Every operation but NOP and STAT is refused by an unconstructed core, before any other check (R181, R189). -/
theorem refusalOf_of_cfgErr {i : Instr} {s : State} (hc : s.arch.status.cfgErr = true) (hn : i ≠ .nop)
    (hs : i ≠ .stat) : refusalOf i s = .cfgErr := by
  cases i with
  | nop => exact absurd rfl hn
  | stat => exact absurd rfl hs
  | rxs | dems | rxb | txq | txb | modb | txs | rst => exact if_pos hc

theorem exec_of_cfgErr {i : Instr} {s : State} (hc : s.arch.status.cfgErr = true) (hn : i ≠ .nop)
    (hs : i ≠ .stat) : exec i s = .next (s.refuse .cfgErr) :=
  exec_of_refusal (refusalOf_of_cfgErr hc hn hs) nofun

/-- On a constructed core the check of a Sample operand decides DEMS (R187 a). -/
theorem refusalOf_dems_of_constructed {s : State} (x : NUM) (hc : s.arch.status.cfgErr = false) :
    refusalOf (.dems x) s = if (numOps s.cfg.num).isFinite x = true then .none else .nonFinite := by
  simp [refusalOf, hc]

/-- Settles O16: the error reported is the refusal, which an unconstructed core gives first, and otherwise the one
check of the operation decides. -/
theorem checksComeInOrder : Obligations.ChecksComeInOrder := by
  unfold Obligations.ChecksComeInOrder
  intro i s t r h hr
  obtain ⟨herr, hok⟩ := exec_answer_err h hr
  refine ⟨herr.trans ?_, hok⟩
  split
  next hfirst =>
    obtain ⟨hc, hn, hs⟩ := hfirst
    exact refusalOf_of_cfgErr hc hn hs
  next hlater =>
    cases i with
    | nop | stat => rfl
    | rxb | txb | modb | txs | rst => exact refusalOf_eq_none_of_constructed (by simpa using hlater) rfl
    | dems x => exact refusalOf_dems_of_constructed x (by simpa using hlater)
    | rxs x rdy => exact refusalOf_dems_of_constructed x (by simpa using hlater)
    | txq y =>
      rw [refusalOf_txq y (by simpa using hlater)]
      cases hcap : s.cfg.txqCap with
      | none => rfl
      | some cap => simp [queueTakes]

/-- Settles O12: NOP and STAT have no check, and every other operation is refused. -/
theorem unconstructedCoreRefuses : Obligations.UnconstructedCoreRefuses := by
  unfold Obligations.UnconstructedCoreRefuses
  intro i s hc
  cases i with
  | nop => exact exec_performed rfl rfl
  | stat =>
    have hword : statusWord s.arch = 0x40 := if_pos hc
    rw [exec_performed (i := .stat) rfl rfl, performed, hword]
    rfl
  | rxs | dems | rxb | txq | txb | modb | txs | rst => exact exec_of_cfgErr hc nofun nofun

/-- Settles O13: RXS checks its operand as DEMS does. -/
theorem nonFiniteSampleIsRefused : Obligations.NonFiniteSampleIsRefused := by
  unfold Obligations.NonFiniteSampleIsRefused
  intro s x rdy hc hx
  have hdems : refusalOf (.dems x) s = .nonFinite :=
    (refusalOf_dems_of_constructed x hc).trans (if_neg (by simp [hx]))
  exact ⟨exec_of_refusal hdems nofun, exec_of_refusal ((refusalOf_rxs x rdy s).trans hdems) nofun⟩

/-- Settles O14: each operation passes its checks, and a value its rules produce or read is not finite. -/
theorem overflowHasNoNextState : Obligations.OverflowHasNoNextState := by
  unfold Obligations.OverflowHasNoNextState
  constructor
  · intro s x rdy hc hx hover
    have hpass := refusalOf_dems hc hx
    exact ⟨exec_overflow hpass hover, exec_overflow ((refusalOf_rxs x rdy s).trans hpass) hover⟩
  · intro s b hc hover
    refine ⟨exec_overflow (refusalOf_eq_none_of_constructed hc rfl) hover, ?_⟩
    rintro rfl
    exact exec_overflow (refusalOf_eq_none_of_constructed hc rfl) hover

/-! ### The sticky flags -/

/-- A receiver step sets the sticky flags that its response reports (10_state.md R37). -/
theorem record_flags (st : Status) (b : Bit) (d : Option Delivery) :
    (st.record d).ferr = (st.ferr || (Response.ofDelivery b d).ferr) ∧
      (st.record d).rxovr = (st.rxovr || (Response.ofDelivery b d).fail) := by
  cases d with
  | none => simp [Status.record, Response.ofDelivery]
  | some d => exact ⟨rfl, rfl⟩

/-- The flags of a response come with a delivered byte (44_uart_receiver.md R145, R146). -/
theorem ofDelivery_bvalid {b : Bit} {d : Option Delivery}
    (h : (Response.ofDelivery b d).ferr = true ∨ (Response.ofDelivery b d).fail = true) :
    (Response.ofDelivery b d).bvalid = true := by
  cases d with
  | none => simp [Response.ofDelivery] at h
  | some d => rfl

/-- A performed operation but RST adds the flags of its response to the sticky ones (R191). -/
theorem performed_flags {i : Instr} (s : State) (hi : i ≠ .rst) :
    (performed i s).1.status.ferr = (s.arch.status.ferr || (performed i s).2.ferr) ∧
      (performed i s).1.status.rxovr = (s.arch.status.rxovr || (performed i s).2.fail) := by
  cases i with
  | rxs x rdy => exact record_flags s.arch.status _ _
  | rxb b rdy => exact record_flags s.arch.status _ _
  | rst => exact absurd rfl hi
  | nop | dems | txq | txb | modb | txs | stat => exact ⟨(Bool.or_false _).symm, (Bool.or_false _).symm⟩

/-- A performed operation reports a flag only with a delivered byte (R191). -/
theorem performed_bvalid {i : Instr} {s : State}
    (h : (performed i s).2.ferr = true ∨ (performed i s).2.fail = true) : (performed i s).2.bvalid = true := by
  cases i with
  | rxs x rdy => exact ofDelivery_bvalid h
  | rxb b rdy => exact ofDelivery_bvalid h
  | nop | dems | txq | txb | modb | txs | stat | rst => simp [performed] at h

/-- Settles O40: a refusal neither changes nor reports a flag, and a performed operation adds those it reports. -/
theorem stickyFlagsStayUntilRst : Obligations.StickyFlagsStayUntilRst := by
  unfold Obligations.StickyFlagsStayUntilRst
  intro i s t r h hr hi
  obtain ⟨_, rfl, rfl⟩ | ⟨_, rfl, rfl⟩ := exec_answer h hr
  · exact ⟨(Bool.or_false _).symm, (Bool.or_false _).symm, by simp⟩
  · obtain ⟨hferr, hrxovr⟩ := performed_flags s hi
    exact ⟨hferr, hrxovr, performed_bvalid⟩

/-! ### The rationals -/

theorem phaseFinite_of_rational {c : Cfg} (hnum : c.num = .rational) (b : Bit) (p : NUM) :
    phaseFinite c b p = true := by
  simp [phaseFinite, numOps_of_rational hnum]

theorem noOverflow_of_rational {s : State} (hnum : s.cfg.num = .rational) (i : Instr) : noOverflow i s = true := by
  cases i with
  | rxs x rdy => exact demodFinite_of_rational hnum s.arch x
  | dems x => exact demodFinite_of_rational hnum s.arch x
  | modb b => exact phaseFinite_of_rational hnum b s.arch.phase
  | txs => exact phaseFinite_of_rational hnum _ s.arch.phase
  | nop | rxb | txq | txb | stat | rst => rfl

/-- Every operand of a rational core is finite, so that it refuses none for a number. -/
theorem refusalOf_ne_nonFinite_of_rational {s : State} (hnum : s.cfg.num = .rational) (i : Instr) :
    refusalOf i s ≠ .nonFinite := by
  have hfinite (x : NUM) : (numOps s.cfg.num).isFinite x = true := by
    rw [numOps_of_rational hnum, rationalOps_isFinite]
  cases i with
  | nop | stat => nofun
  | rxs x | dems x =>
    simp only [refusalOf, hfinite]
    split <;> nofun
  | txq y =>
    simp only [refusalOf]
    split
    · nofun
    · split <;> nofun
  | rxb | txb | modb | txs | rst =>
    simp only [refusalOf]
    split <;> nofun

/-- Settles O49: the operation is refused, not for a number, or performed, since nothing overflows. -/
theorem rationalCoreAlwaysAnswers : Obligations.RationalCoreAlwaysAnswers := by
  unfold Obligations.RationalCoreAlwaysAnswers
  intro i s hnum
  have hne := refusalOf_ne_nonFinite_of_rational hnum i
  by_cases hpass : refusalOf i s = .none
  · exact ⟨_, _, exec_performed hpass (noOverflow_of_rational hnum i), rfl, by simp [performed_ok]⟩
  · exact ⟨_, _, exec_refused hpass, rfl, hne⟩

/-! ### The operation word -/

/-- A number with more bits than an operation word is no operation word (R80). -/
theorem decode_of_overlong {numW : Option Nat} {w : Nat} (h : fitsIn (wordWidth numW) w = false) :
    decode numW w = .error .overlong := if_pos h

/-- What decodes to an operation is an operation word (R80). -/
theorem fitsIn_of_decode {numW : Option Nat} {w : Nat} {i : Instr} (h : decode numW w = .ok i) :
    fitsIn (wordWidth numW) w = true := by
  cases hfit : fitsIn (wordWidth numW) w with
  | true => rfl
  | false =>
    rw [decode_of_overlong hfit] at h
    cases h

theorem opField_encode (i : Instr) : opField (encode i) = i.opcode := by
  cases i <;> exact opField_wordOf _ _ (by simp [Instr.opcode])

section
variable {op : Nat} (rdy : Bit) (hop : op < 16)
include hop

theorem sampleOperand_wordOf {numW : Option Nat} {x : NUM} (h : fitsIn numW x.enc = true) :
    sampleOperand numW (wordOf op rdy x.enc) = x := by
  rw [sampleOperand, argField_wordOf rdy x.enc hop, lowBits_of_fitsIn h]

theorem bitOperand_wordOf (b : Bit) : bitOperand (wordOf op rdy b.toNum) = b := by
  rw [bitOperand, argField_wordOf rdy b.toNum hop]
  cases b <;> rfl

theorem byteOperand_wordOf (y : Byte) : byteOperand (wordOf op rdy y.toNat) = y := by
  rw [byteOperand, argField_wordOf rdy y.toNat hop, BitVec.ofNat_toNat, BitVec.setWidth_eq]

end

/-- Settles O1: the word fits, its code selects the operation's row of the table, and the operands come back from
their fields. -/
theorem decodeInvertsEncode : Obligations.DecodeInvertsEncode := by
  unfold Obligations.DecodeInvertsEncode
  intro numW i h
  have hop := opField_encode i
  rw [decode_eq (encode_fits_of_wf h), hop]
  cases i with
  | nop | txb | txs | stat | rst => rfl
  | rxs x rdy => simp [Instr.opcode, encode, sampleOperand_wordOf rdy _ h]
  | dems x => simp [Instr.opcode, encode, sampleOperand_wordOf true _ h]
  | rxb b rdy => simp [Instr.opcode, encode, bitOperand_wordOf]
  | txq y => simp [Instr.opcode, encode, byteOperand_wordOf]
  | modb b => simp [Instr.opcode, encode, bitOperand_wordOf]

/-- The operation a word decodes to is well-formed and has the word's code: each row of the table (R81, R85). -/
theorem decode_wf_opcode {numW : Option Nat} {w : Nat} {i : Instr} (h : decode numW w = .ok i) :
    i.wf numW = true ∧ i.opcode = opField w := by
  have hsample : fitsIn numW (sampleOperand numW w).enc = true := fitsIn_lowBits numW (argField w)
  rw [decode_eq (fitsIn_of_decode h)] at h
  split_ifs at h with h0 h1 h2 h3 h4 h5 h6 h7 h8 h15 <;> cases h
  · exact ⟨rfl, h0.symm⟩
  · exact ⟨hsample, h1.symm⟩
  · exact ⟨hsample, h2.symm⟩
  · exact ⟨rfl, h3.symm⟩
  · exact ⟨rfl, h4.symm⟩
  · exact ⟨rfl, h5.symm⟩
  · exact ⟨rfl, h6.symm⟩
  · exact ⟨rfl, h7.symm⟩
  · exact ⟨rfl, h8.symm⟩
  · exact ⟨rfl, h15.symm⟩

/-- Settles O2: the word of a well-formed operation fits. -/
theorem decodedOperationFitsItsWord : Obligations.DecodedOperationFitsItsWord := by
  unfold Obligations.DecodedOperationFitsItsWord
  intro numW w i h
  obtain ⟨hwf, hcode⟩ := decode_wf_opcode h
  exact ⟨hwf, hcode, encode_fits_of_wf hwf⟩

/-- Settles O6: each of the ten words is the canonical word of its operation. -/
theorem writtenOutWordsDecode : Obligations.WrittenOutWordsDecode := by
  unfold Obligations.WrittenOutWordsDecode
  have hword {w : Nat} (i : Instr) (hwf : i.wf (some 32) = true) (hw : encode i = w) :
      decode (some 32) w = .ok i := hw ▸ decodeInvertsEncode (some 32) i hwf
  exact ⟨hword .nop rfl rfl, hword (.rxs _ _) rfl rfl, hword (.dems _) rfl rfl, hword (.rxb _ _) rfl rfl,
    hword (.txq _) rfl rfl, hword .txb rfl rfl, hword (.modb _) rfl rfl, hword .txs rfl rfl, hword .stat rfl rfl,
    hword .rst rfl rfl⟩

/-- Settles O7: the three outcomes of decoding the front word, or having none. -/
theorem stepPerformsThePresentedOperation : Obligations.StepPerformsThePresentedOperation := by
  unfold Obligations.StepPerformsThePresentedOperation
  refine ⟨fun s w rest i hp hd => ?_, fun s hp => step_of_idle_port hp, fun s w rest hp hfit => ?_⟩
  · rw [step_of_port hp, hd]
    rfl
  · rw [step_of_port hp, decode_of_overlong hfit]
    rfl

/-! ### Construction -/

/-- Settles O11: CFGERR is set when CFG is not valid, and what a valid CFG promises fails in one of six ways. -/
theorem constructionChecksTheConfiguration : Obligations.ConstructionChecksTheConfiguration := by
  unfold Obligations.ConstructionChecksTheConfiguration
  intro c
  have hcfgErr : (State.construct c).arch.status.cfgErr = !cfgValid c := rfl
  rw [hcfgErr, Bool.not_eq_true', ← Bool.not_eq_true, cfgValid_iff]
  simp only [not_and_or, not_forall, not_le, Nat.lt_one_iff, exists_prop]

/-- Settles O43: TV1 passes the check of construction. -/
theorem resetIsTheNamedConfiguration : Obligations.ResetIsTheNamedConfiguration := by
  unfold Obligations.ResetIsTheNamedConfiguration
  have hvalid : cfgValid tv1 = true := by decide
  exact ⟨rfl, hvalid, congrArg (!·) hvalid, rfl, rfl⟩

/-! ### The invariant -/

theorem construct_inv (c : Cfg) : Inv (State.construct c) := ⟨rfl, initial_archInv, nofun⟩

/-- Settles O44: the reset values are in order, and nothing is answered yet. -/
theorem constructionMeetsTheInvariant : Obligations.ConstructionMeetsTheInvariant := by
  unfold Obligations.ConstructionMeetsTheInvariant
  exact ⟨construct_inv, construct_inv resetCfg⟩

/-- A refusal's response has no value and an error (30_encoding.md R83). -/
theorem refusal_responseInv (c : Cfg) {e : Err} (he : e ≠ .none) : ResponseInv c { err := e } :=
  ⟨byte_fitsIn_argWidth (numWidth c.num) (Nat.zero_lt_succ 255), by simp [he]⟩

/-- The response to an operation is one the core can return. -/
theorem exec_responseInv {i : Instr} {s t : State} {r : Response} (h : exec i s = .next t) (hr : t.resp = some r) :
    ResponseInv s.cfg r := by
  obtain ⟨hrefused, _, rfl⟩ | ⟨_, _, rfl⟩ := exec_answer h hr
  · exact refusal_responseInv s.cfg hrefused
  · exact performed_responseInv i s

/-- The response that stands after a step is the one that stood, or one the core can return. -/
theorem step_responseInv {s t : State} {r : Response} (hs : ∀ r, s.resp = some r → ResponseInv s.cfg r)
    (h : step s = .next t) (hr : t.resp = some r) : ResponseInv s.cfg r := by
  obtain ⟨_, rfl⟩ | ⟨_, rest, _, _, _, he⟩ | ⟨_, _, _, _, _, rfl⟩ := step_next h
  · exact hs r hr
  · exact exec_responseInv (s := s.withPort rest) he hr
  · cases hr
    exact refusal_responseInv s.cfg nofun

/-- Settles O45: a step keeps CFG and CFGERR, the core of a valid CFG in order, and answers with a response the core
can return. -/
theorem stepKeepsTheInvariant : Obligations.StepKeepsTheInvariant := by
  unfold Obligations.StepKeepsTheInvariant
  intro s t hinv h
  obtain ⟨hcfg, hcfgErr, _⟩ := stepKeepsTheConfiguration s t h
  refine ⟨?_, fun hv => ?_, fun r hr => ?_⟩
  · rw [hcfg, hcfgErr]
    exact hinv.cfgErr
  · rw [hcfg] at hv ⊢
    exact step_archInv hv (hinv.arch hv) h
  · rw [hcfg]
    exact step_responseInv hinv.resp h hr

end Sys2Proof.Machine
